-- ==== Sys2Proof/Word.lean ====
section
/-! DEFINITION. The widths of the block's words (spec/10_state.md, spec/30_encoding.md R80) and their plainest arithmetic. -/

namespace Sys2Proof

/-- The eight data bits that every bus operation moves (R8). -/
abbrev Byte := BitVec 8

/-- One flash word (R22). -/
abbrev FlashWord := BitVec 16

/-- A flash byte offset, 0 to 1023: a data-space address minus FLASH_MAP_BASE (R18). -/
abbrev Offset := BitVec 10

/-- PADDR, the page within the flash (R161). -/
abbrev PageNo := BitVec 6

/-- W, the word index in the flash (R161). -/
abbrev WordIndex := BitVec 9

/-- The transaction word T the host presents in one cycle (R80). -/
abbrev Transaction := BitVec 22

end Sys2Proof
end

