-- ==== Sys2Proof/Config.lean ====
section
/-! DEFINITION. What one instance of the block fixes: the geometry (R7), the open parameters (R9) with their constraints, the spec's test configuration TC0 (R19), and the free values (spec/93_implementation_defined.md section 2). -/

namespace Sys2Proof

/-- FLASH_BYTES of R7: the length of the flash and of its window in data space. -/
abbrev flashBytes : Nat := 1024

/-- PAGE_BYTES of R7. -/
abbrev pageBytes : Nat := 16

/-- PAGE_WORDS of R7. -/
abbrev pageWords : Nat := 8

/-- ENABLE_WINDOW of R7: the cycles in which a trigger store is accepted. -/
abbrev enableWindow : Nat := 4

/-- POST_TRIGGER_NOPS of R7. -/
abbrev postTriggerNops : Nat := 2

/-- ERASED_WORD of R7. -/
abbrev erasedWord : FlashWord := 0xFFFF#16

/-- The parameters of R9 that the source leaves open, which the model takes as an argument.
FLASH_INIT, the remaining one, is the argument `init` of `Machine.State.powerOn`. -/
structure Config where
  addrWidth     : Nat
  flashMapBase  : Nat
  cmdAddr       : Nat
  protAddr      : Nat
  statusAddr    : Nat
  pageEraseCode : Byte
  wordWriteCode : Byte
  enableCode    : Byte
  busyBit       : Fin 8
  ceWindow      : Nat
deriving DecidableEq, Repr

/-- `addr` lies in the flash window (R18). -/
abbrev Config.InWindow (c : Config) (addr : Nat) : Prop :=
  c.flashMapBase ≤ addr ∧ addr < c.flashMapBase + flashBytes

/-- The constraints of R9: a parameter set that breaks them is no instance of the block. -/
structure Config.Valid (c : Config) : Prop where
  baseAligned   : c.flashMapBase % pageBytes = 0
  windowFits    : c.flashMapBase + flashBytes ≤ 2 ^ c.addrWidth
  cmdOutside    : ¬ c.InWindow c.cmdAddr
  protOutside   : ¬ c.InWindow c.protAddr
  statusOutside : ¬ c.InWindow c.statusAddr
  cmdFits       : c.cmdAddr < 2 ^ c.addrWidth
  protFits      : c.protAddr < 2 ^ c.addrWidth
  statusFits    : c.statusAddr < 2 ^ c.addrWidth
  cmdNeProt     : c.cmdAddr ≠ c.protAddr
  cmdNeStatus   : c.cmdAddr ≠ c.statusAddr
  protNeStatus  : c.protAddr ≠ c.statusAddr
  codesDiffer   : c.pageEraseCode ≠ c.wordWriteCode
  windowPos     : 1 ≤ c.ceWindow

/-- TC0, the spec's reference test configuration (R19): numbers for examples, on which no rule depends.
DESIGN CHOICE (log 1): `State.reset` uses it. -/
def Config.tc0 : Config where
  addrWidth     := 16
  flashMapBase  := 0x4000
  cmdAddr       := 0x0033
  protAddr      := 0x003C
  statusAddr    := 0x0032
  pageEraseCode := 0x18#8
  wordWriteCode := 0x1D#8
  enableCode    := 0xE7#8
  busyBit       := 7
  ceWindow      := 4

/-- FREE VALUE (log 10): the byte drawn in cycle `n`: the status bits other than BUSY_BIT (R106), a flash
load in Busy (R151), `rdata` of a cycle without an answer (R80) or after a fault (R43). -/
opaque Config.freeByte : Nat → Byte

/-- FREE VALUE (log 10): CMD after the RESET made at draw `n` (R40). -/
opaque Config.freeCmd : Nat → Byte

/-- FREE VALUE (log 10): the flash byte at offset `off` after a fault, at draw `n` (R43, R203). -/
opaque Config.freeFlash : Nat → Nat → Byte

end Sys2Proof
end

