-- ==== Sys2Proof/Syntax.lean ====
section
/-! DEFINITION. The operations, codes, steps and pseudo-operations of spec/opcode_table.json, one constructor per row (spec/30_encoding.md R81, R87 to R89, R93; spec/45_internal_steps.md R175). -/

namespace Sys2Proof

/-- One row of the opcode table. Bits the decoder ignores (R82) are no operands. -/
inductive Instr where
  -- format BUS: one transaction word, one cycle
  /-- NOP, R101. -/
  | nop
  /-- RD_CMD, R108. -/
  | rdCmd
  /-- WR_CMD, R102 and R103. -/
  | wrCmd (data : Byte)
  /-- RD_PROT, R108. -/
  | rdProt
  /-- WR_PROT, R104 and R105. -/
  | wrProt (data : Byte)
  /-- RD_STATUS, R106. -/
  | rdStatus
  /-- WR_STATUS, R108. -/
  | wrStatus (data : Byte)
  /-- LD_FLASH, R150 and R151. -/
  | ldFlash (off : Offset)
  /-- ST_FLASH, R121, R136, R152. -/
  | stFlash (off : Offset) (data : Byte)
  /-- RSVD_SEL, the row sel = 1x1, R109; `mid` is T[19]. -/
  | rsvdSelOdd (mid : BitVec 1)
  /-- RSVD_SEL, the row sel = 110, R109. -/
  | rsvdSelSix
  -- formats CMDCODE, PROTCODE, STATUSBYTE: a value of `data`, or the field of `rdata` (log 12)
  /-- PAGE_ERASE: WR_CMD with data PAGE_ERASE_CODE, R87 and R120. -/
  | pageErase
  /-- WORD_WRITE: WR_CMD with data WORD_WRITE_CODE, R87 and R135. -/
  | wordWrite
  /-- CMD_RESERVED: WR_CMD with a data that is neither code, R87 and R103. -/
  | cmdReserved (code : Byte)
  /-- ENABLE: WR_PROT with data ENABLE_CODE, R88 and R104. -/
  | enable
  /-- BUSY: the one defined field of the byte RD_STATUS returns, R89 and R106. -/
  | busy
  -- format STEP: not presented on the bus
  /-- COMPLETE, the controller's internal step, R179. -/
  | complete
  /-- RESET, the environment's step, R220. -/
  | reset
  -- format PSEUDO: sequences of operations; gaps `g` are counts of NOP cycles (R198)
  /-- read_byte A, R191. -/
  | readByte (addr : Nat)
  /-- write_byte A, v, R192. -/
  | writeByte (addr : Nat) (value : Byte)
  /-- wait_not_busy, R185: the gaps after the polls that find the block busy, and the gap after the last
  poll (log 14). -/
  | waitNotBusy (polls : List Nat) (last : Nat)
  /-- erase_page A, R186: the dummy byte d, the gaps g1 and g2, `more` NOP cycles beyond the two that must
  follow the trigger, and the poll's gaps. -/
  | erasePage (addr : Nat) (dummy : Byte) (g1 g2 more : Nat) (polls : List Nat) (last : Nat)
  /-- write_word A, W, R188: the gaps g1, g2 and g3, and the poll's gaps. -/
  | writeWord (addr : Nat) (word : FlashWord) (g1 g2 g3 : Nat) (polls : List Nat) (last : Nat)
  /-- read_word A, R190: the gap between the two loads. -/
  | readWord (addr : Nat) (gap : Nat)
deriving DecidableEq, Repr

end Sys2Proof
end

