-- ==== Sys2Proof/WellFormed.lean ====
section
/-! DEFINITION. Which operands an instruction may carry, for an instance `c` of the parameters. A BUS operation's operands are fields of the transaction word, so every value is well formed (R81). -/

namespace Sys2Proof

/-- The operand checks.
CMD_RESERVED stands for a value that is neither code (R87); read_byte and write_byte take a data-space
address (R84); the flash sequences take an address in the window (R186, R188, R190, R167). -/
def Instr.wellFormed (c : Config) : Instr → Bool
  | .cmdReserved code => code != c.pageEraseCode && code != c.wordWriteCode
  | .readByte addr => decide (addr < 2 ^ c.addrWidth)
  | .writeByte addr _ => decide (addr < 2 ^ c.addrWidth)
  | .erasePage addr _ _ _ _ _ _ => decide (c.InWindow addr)
  | .writeWord addr _ _ _ _ _ _ => decide (c.InWindow addr)
  | .readWord addr _ => decide (c.InWindow addr)
  | .nop => true
  | .rdCmd => true
  | .wrCmd _ => true
  | .rdProt => true
  | .wrProt _ => true
  | .rdStatus => true
  | .wrStatus _ => true
  | .ldFlash _ => true
  | .stFlash _ _ => true
  | .rsvdSelOdd _ => true
  | .rsvdSelSix => true
  | .pageErase => true
  | .wordWrite => true
  | .enable => true
  | .busy => true
  | .complete => true
  | .reset => true
  | .waitNotBusy _ _ => true

/-- The instruction is one operation on the bus: it is one transaction word and takes one cycle (R80). -/
def Instr.isBus : Instr → Bool
  | .nop => true
  | .rdCmd => true
  | .wrCmd _ => true
  | .rdProt => true
  | .wrProt _ => true
  | .rdStatus => true
  | .wrStatus _ => true
  | .ldFlash _ => true
  | .stFlash _ _ => true
  | .rsvdSelOdd _ => true
  | .rsvdSelSix => true
  | .pageErase => false
  | .wordWrite => false
  | .cmdReserved _ => false
  | .enable => false
  | .busy => false
  | .complete => false
  | .reset => false
  | .readByte _ => false
  | .writeByte _ _ => false
  | .waitNotBusy _ _ => false
  | .erasePage _ _ _ _ _ _ _ => false
  | .writeWord _ _ _ _ _ _ _ => false
  | .readWord _ _ => false

end Sys2Proof
end

