-- ==== Sys2Proof/Decode.lean ====
section
/-! DEFINITION. The transaction word: its fields (R80), the decoder (R81, R82), the second-level decoders of the code bytes (R87 to R89), the address decoder (R83, R84), the expansions of the pseudo-operations (R93) and the encoder. -/

namespace Sys2Proof

/-! ### The fields of a transaction word (R80) -/

/-- T[21]: the host stores. -/
def rwOf (T : Transaction) : Bool := T.getLsbD 21

/-- T[20:18]: which part of the block is addressed. -/
def selOf (T : Transaction) : BitVec 3 := T.extractLsb' 18 3

/-- T[17:8]: the flash byte offset. -/
def offOf (T : Transaction) : Offset := T.extractLsb' 8 10

/-- T[7:0]: the byte stored. -/
def dataOf (T : Transaction) : Byte := T.extractLsb' 0 8

/-- `{rw, sel, off, data}`. -/
def pack (rw : Bool) (sel : BitVec 3) (off : Offset) (data : Byte) : Transaction :=
  BitVec.ofBool rw ++ sel ++ off ++ data

/-! ### Decoding (R81) -/

/-- Decoding is by `rw` and `sel` alone and is total; ignored bits (R82) reach no operand. -/
def decode (T : Transaction) : Instr :=
  if selOf T = 0b000#3 then .nop
  else if selOf T = 0b001#3 then bif rwOf T then .wrCmd (dataOf T) else .rdCmd
  else if selOf T = 0b010#3 then bif rwOf T then .wrProt (dataOf T) else .rdProt
  else if selOf T = 0b011#3 then bif rwOf T then .wrStatus (dataOf T) else .rdStatus
  else if selOf T = 0b100#3 then bif rwOf T then .stFlash (offOf T) (dataOf T) else .ldFlash (offOf T)
  else if selOf T = 0b110#3 then .rsvdSelSix
  else .rsvdSelOdd ((selOf T).extractLsb' 1 1)

/-- Why a number is no transaction word. -/
inductive Reject where
  /-- Bits above bit 21 are set: a transaction word has 22 bits (R80). -/
  | beyondWord
deriving DecidableEq, Repr

/-- The decoder on any number: a transaction word is decoded, anything wider is rejected by name. -/
def decodeNat (w : Nat) : Except Reject Instr :=
  if w < 2 ^ 22 then .ok (decode (BitVec.ofNat 22 w)) else .error .beyondWord

/-- What the `data` of a WR_CMD selects (R87). -/
def decodeCmdCode (c : Config) (data : Byte) : Instr :=
  if data = c.pageEraseCode then .pageErase
  else if data = c.wordWriteCode then .wordWrite
  else .cmdReserved data

/-- What the `data` of a WR_PROT selects (R88): one value is defined, the others are outside the block. -/
def decodeProtCode (c : Config) (data : Byte) : Option Instr :=
  if data = c.enableCode then some .enable else none

/-- What a code byte standing alone is read as: the enable code (R88), else what CMD makes of it (R87).
DESIGN CHOICE (log 19): the byte does not say which register it is for. -/
def decodeCode (c : Config) (code : Byte) : Instr := (decodeProtCode c code).getD (decodeCmdCode c code)

/-- What the decoder reads from the `nbits` bits `w`: a byte is one of the code rows, in the configuration
TC0 that the table's `match_tc0` and `State.reset` use, anything else the low bits of a transaction word whose
other bits are 0 (log 19). -/
def decodeTableWord (nbits w : Nat) : Option Instr :=
  if nbits = 8 then some (decodeCode Config.tc0 (BitVec.ofNat 8 w))
  else
    match decodeNat (w % 2 ^ nbits) with
    | .ok i => some i
    | .error _ => none

/-- The one defined field of the status byte (R89). -/
def decodeStatusByte (c : Config) (rdata : Byte) : Bool := rdata.getLsbD c.busyBit

/-- The table's mnemonic of an instruction. -/
def mnemonic : Instr → String
  | .nop => "NOP"
  | .rdCmd => "RD_CMD"
  | .wrCmd _ => "WR_CMD"
  | .rdProt => "RD_PROT"
  | .wrProt _ => "WR_PROT"
  | .rdStatus => "RD_STATUS"
  | .wrStatus _ => "WR_STATUS"
  | .ldFlash _ => "LD_FLASH"
  | .stFlash _ _ => "ST_FLASH"
  | .rsvdSelOdd _ => "RSVD_SEL"
  | .rsvdSelSix => "RSVD_SEL"
  | .pageErase => "PAGE_ERASE"
  | .wordWrite => "WORD_WRITE"
  | .cmdReserved _ => "CMD_RESERVED"
  | .enable => "ENABLE"
  | .busy => "BUSY"
  | .complete => "COMPLETE"
  | .reset => "RESET"
  | .readByte _ => "read_byte"
  | .writeByte _ _ => "write_byte"
  | .waitNotBusy _ _ => "wait_not_busy"
  | .erasePage _ _ _ _ _ _ _ => "erase_page"
  | .writeWord _ _ _ _ _ _ _ => "write_word"
  | .readWord _ _ => "read_word"

/-- A row of the decode table of R81: it selects the words `T` with `T AND mask = pattern`. -/
structure BusRow where
  name    : String
  pattern : Transaction
  mask    : Transaction
deriving DecidableEq, Repr

/-- `T` selects the row (R81). -/
def BusRow.selects (r : BusRow) (T : Transaction) : Bool := T &&& r.mask == r.pattern

/-- The decode table of R81, row by row. -/
def busRows : List BusRow :=
  [ ⟨"NOP",       0x000000#22, 0x1C0000#22⟩,
    ⟨"RD_CMD",    0x040000#22, 0x3C0000#22⟩,
    ⟨"WR_CMD",    0x240000#22, 0x3C0000#22⟩,
    ⟨"RD_PROT",   0x080000#22, 0x3C0000#22⟩,
    ⟨"WR_PROT",   0x280000#22, 0x3C0000#22⟩,
    ⟨"RD_STATUS", 0x0C0000#22, 0x3C0000#22⟩,
    ⟨"WR_STATUS", 0x2C0000#22, 0x3C0000#22⟩,
    ⟨"LD_FLASH",  0x100000#22, 0x3C0000#22⟩,
    ⟨"ST_FLASH",  0x300000#22, 0x3C0000#22⟩,
    ⟨"RSVD_SEL",  0x140000#22, 0x140000#22⟩,
    ⟨"RSVD_SEL",  0x180000#22, 0x1C0000#22⟩ ]

/-! ### From a data-space access to a transaction word (R83, R84) -/

/-- The address decoder, the front half of the address translator (R83). -/
def addrDecode (c : Config) (rw : Bool) (addr : Nat) (data : Byte) : Transaction :=
  if c.InWindow addr then pack rw 0b100#3 (BitVec.ofNat 10 (addr - c.flashMapBase)) data
  else if addr = c.cmdAddr then pack rw 0b001#3 0#10 data
  else if addr = c.protAddr then pack rw 0b010#3 0#10 data
  else if addr = c.statusAddr then pack rw 0b011#3 0#10 data
  else pack rw 0b000#3 0#10 data

/-- The operation of `MemRead(addr, 1)` (R84). -/
def memReadOp (c : Config) (addr : Nat) : Instr := decode (addrDecode c false addr 0#8)

/-- The operation of `MemWrite(addr, 1, v)` (R84). -/
def memWriteOp (c : Config) (addr : Nat) (v : Byte) : Instr := decode (addrDecode c true addr v)

/-! ### Expansions of the pseudo-operations (R93, R198) -/

/-- `NOP xg` (R198). -/
def nopOps (g : Nat) : List Instr := List.replicate g .nop

/-- `erase_page A` up to its poll (R186). -/
def eraseOps (c : Config) (addr : Nat) (dummy : Byte) (g1 g2 more : Nat) : List Instr :=
  [.wrCmd c.pageEraseCode] ++ nopOps g1 ++ [.wrProt c.enableCode] ++ nopOps g2 ++
    [memWriteOp c addr dummy] ++ nopOps (postTriggerNops + more)

/-- `write_word A, W` up to its poll (R188): the low byte, then the high byte at the next address (R86). -/
def writeOps (c : Config) (addr : Nat) (word : FlashWord) (g1 g2 g3 : Nat) : List Instr :=
  [.wrCmd c.wordWriteCode] ++ nopOps g1 ++ [.wrProt c.enableCode] ++ nopOps g2 ++
    [memWriteOp c addr (word.extractLsb' 0 8)] ++ nopOps g3 ++
    [memWriteOp c (addr + 1) (word.extractLsb' 8 8)] ++ nopOps postTriggerNops

/-- The polls of `wait_not_busy` (R185) that find the block busy, each with its gap, and the last one. -/
def pollOps (polls : List Nat) (last : Nat) : List Instr :=
  polls.flatMap (fun g => .rdStatus :: nopOps g) ++ (.rdStatus :: nopOps last)

/-- The bus operations an instruction stands for, in order: a BUS row itself, a code row the register
write or read that carries it, a pseudo-operation its expansion, a step none (R92). -/
def expansion (c : Config) : Instr → List Instr
  | .nop => [.nop]
  | .rdCmd => [.rdCmd]
  | .wrCmd data => [.wrCmd data]
  | .rdProt => [.rdProt]
  | .wrProt data => [.wrProt data]
  | .rdStatus => [.rdStatus]
  | .wrStatus data => [.wrStatus data]
  | .ldFlash off => [.ldFlash off]
  | .stFlash off data => [.stFlash off data]
  | .rsvdSelOdd mid => [.rsvdSelOdd mid]
  | .rsvdSelSix => [.rsvdSelSix]
  | .pageErase => [.wrCmd c.pageEraseCode]
  | .wordWrite => [.wrCmd c.wordWriteCode]
  | .cmdReserved code => [.wrCmd code]
  | .enable => [.wrProt c.enableCode]
  | .busy => [.rdStatus]
  | .complete => []
  | .reset => []
  | .readByte addr => [memReadOp c addr]
  | .writeByte addr value => [memWriteOp c addr value]
  | .waitNotBusy polls last => pollOps polls last
  | .erasePage addr dummy g1 g2 more polls last => eraseOps c addr dummy g1 g2 more ++ pollOps polls last
  | .writeWord addr word g1 g2 g3 polls last => writeOps c addr word g1 g2 g3 ++ pollOps polls last
  | .readWord addr gap => [memReadOp c addr] ++ nopOps gap ++ [memReadOp c (addr + 1)]

/-! ### Encoding (R80, R81; ignored bits are written as zero, R82) -/

/-- The transaction word of a bus operation; the other rows are no transaction of their own. -/
def encodeOp : Instr → Option Transaction
  | .nop => some (pack false 0b000#3 0#10 0#8)
  | .rdCmd => some (pack false 0b001#3 0#10 0#8)
  | .wrCmd data => some (pack true 0b001#3 0#10 data)
  | .rdProt => some (pack false 0b010#3 0#10 0#8)
  | .wrProt data => some (pack true 0b010#3 0#10 data)
  | .rdStatus => some (pack false 0b011#3 0#10 0#8)
  | .wrStatus data => some (pack true 0b011#3 0#10 data)
  | .ldFlash off => some (pack false 0b100#3 off 0#8)
  | .stFlash off data => some (pack true 0b100#3 off data)
  | .rsvdSelOdd mid => some (pack false (1#1 ++ mid ++ 1#1) 0#10 0#8)
  | .rsvdSelSix => some (pack false 0b110#3 0#10 0#8)
  | .pageErase => none
  | .wordWrite => none
  | .cmdReserved _ => none
  | .enable => none
  | .busy => none
  | .complete => none
  | .reset => none
  | .readByte _ => none
  | .writeByte _ _ => none
  | .waitNotBusy _ _ => none
  | .erasePage _ _ _ _ _ _ _ => none
  | .writeWord _ _ _ _ _ _ _ => none
  | .readWord _ _ => none

/-- The transaction words of an instruction: those of its expansion, one per cycle. -/
def encode (c : Config) (i : Instr) : List Transaction := (expansion c i).filterMap encodeOp

end Sys2Proof
end

