-- ==== Sys2Proof/Machine/State.lean ====
section
/-! DEFINITION. The state of the block (spec/10_state.md R45), the model's two sticky marks (R43, R44), the fields the model adds (cfg, result, draws, agenda), and the state after reset (R39 to R42). -/

namespace Sys2Proof.Machine

/-- The sequencer's control state (R29). -/
inductive Phase where
  | idle
  | cmdLoaded
  | armed
  | triggered
  | busy
deriving DecidableEq, Repr

/-- `Some(off, b)` of R32: the even offset of the first store of a word write, and its byte. -/
structure Latch where
  off  : Offset
  byte : Byte
deriving DecidableEq, Repr

/-- The pending effect that COMPLETE will apply (R33). -/
inductive Effect where
  | noEffect
  | erasePage (p : PageNo)
  | writeWord (w : WordIndex) (v : FlashWord)
deriving DecidableEq, Repr

/-- The fault reasons (R43, R203). Each is set as the sticky mark `State.fault` of a NEXT state, never as
the outcome of a step: "A state with fault or refused set still takes steps" (spec/93 section 1). From then
on FLASH and every output are free values, so no claim about them can be proved: safe (log 4, 5). -/
inductive Fault where
  /-- ST_FLASH in Idle or CmdLoaded (R152). Raised by `stFlashCycle`. Safe: the flash becomes unspecified. -/
  | unarmedFlashStore
  /-- A store pair of a word write that is not low byte, then high byte of one word (R139). Raised by
  `stFlashCycle`. Safe: the flash becomes unspecified. -/
  | malformedWrite
  /-- An operation other than NOP in Triggered (R112). Raised by every bus operation but NOP. Safe. -/
  | hazardViolation
  /-- WR_CMD, WR_PROT or ST_FLASH in Busy (R113). Raised by those three. Safe. -/
  | busyViolation
  /-- RESET in Triggered or Busy (R221). Raised by `resetStep`. Safe: the flash becomes unspecified. -/
  | interrupted
deriving DecidableEq, Repr

/-- The refusal reasons (R44, R204), set as the sticky mark `State.refused` of a NEXT state, and the two
reasons with which a step is itself refused (`notEnabled`, `notModelled`). -/
inductive Refusal where
  /-- WR_CMD with neither code (R103), raised by `wrCmdCycle`; and a trigger store in Armed under such a
  CMD, which no run reaches (log 18). A mark: a statement about later states must take it into account. -/
  | reservedCommand
  /-- An operation other than the expected one in CmdLoaded or Armed (R111). A mark, raised by WR_CMD,
  WR_PROT, RD_STATUS and LD_FLASH. -/
  | interleaved
  /-- RD_CMD or RD_PROT (R108). A mark. -/
  | unreadableRegister
  /-- WR_STATUS (R108). A mark. -/
  | unwritableRegister
  /-- RSVD_SEL (R109). A mark. -/
  | reservedSelect
  /-- A translator function called outside its domain (R167). A mark, raised by the pseudo-operations. -/
  | translatorDomain
  /-- COMPLETE presented where it is not enabled: "Enabled when phase = Busy and fault = None" (R179). An
  outcome of `execComplete`: there is no such step. Safe. -/
  | notEnabled
  /-- An instruction that has no meaning yet: an arm of `exec` rejected by name. Safe. -/
  | notModelled (mnemonic : String)
deriving DecidableEq, Repr

/-- What one of the three agents does next (R16, R175; log 2). -/
inductive Event where
  /-- The host presents the transaction word `T` for one cycle: Cycle(T). -/
  | word (T : Transaction)
  /-- A row that has no encoding of its own happens: the controller's COMPLETE, the environment's RESET, or
  a driver operation that software runs. -/
  | act (i : Instr)
deriving DecidableEq, Repr

/-- FLASH as the bytes FB(off) (R14, R50): the offsets listed, strictly rising, with their bytes.
An offset that is not listed reads as `unlistedByte`. -/
abbrev Memory := List Host.Cell

/-- What an offset of FLASH that is not listed reads as. DESIGN CHOICE (log 7). -/
abbrev unlistedByte : Byte := 0xFF#8

/-- All state of the block (R45). PROT stores nothing (R26), STATUS and BUSY are not stored (R27, R28). -/
structure State where
  /-- The parameters of R9 (log 1). No step changes them. -/
  cfg     : Config
  /-- FLASH, R22. -/
  flash   : Memory
  /-- CMD, R25. -/
  cmd     : Byte
  /-- `phase`, R29. -/
  phase   : Phase
  /-- `age`, R30. -/
  age     : Nat
  /-- `ew`, R31. -/
  ew      : Nat
  /-- `lat`, R32. -/
  lat     : Option Latch
  /-- `eff`, R33. -/
  eff     : Effect
  /-- `tn`, R34. -/
  tn      : Nat
  /-- `fault`, R43. -/
  fault   : Option Fault
  /-- `refused`, R44. -/
  refused : Option Refusal
  /-- `rdata`, what the block answered in the latest cycle (R14, R80). -/
  rdata   : Byte
  /-- The model's own: the value the latest `read_word` or BUSY test returned to software (R190; log 11). -/
  result  : FlashWord
  /-- The model's own: how many draws were made, the argument of the free values (log 10). -/
  draws   : Nat
  /-- The model's own: what the agents do next (log 2). -/
  agenda  : List Event
deriving DecidableEq, Repr

/-- The machine before the first operation ever (R42), for every instance `c` of the parameters and all
first contents `init` of the flash (FLASH_INIT); the other values are those of R40.
CMD, `rdata` and `result` are DESIGN CHOICES (log 8, 9, 11). -/
def State.powerOn (c : Config) (init : Memory) : State where
  cfg     := c
  flash   := init
  cmd     := 0#8
  phase   := .idle
  age     := 0
  ew      := 0
  lat     := none
  eff     := .noEffect
  tn      := 0
  fault   := none
  refused := none
  rdata   := 0#8
  result  := 0#16
  draws   := 0
  agenda  := []

/-- The machine right after reset, in the test configuration TC0 of R19 (DESIGN CHOICE, log 1 and 7). -/
def State.reset : State := State.powerOn Config.tc0 []

end Sys2Proof.Machine
end

