-- ==== Sys2Proof/Machine/Flags.lean ====
section
/-! DEFINITION. The only flag of the block, BUSY (R28), and the status byte that shows it (R89, R106). -/

namespace Sys2Proof.Machine

/-- BUSY = 1 when phase = Busy, else 0 (R28). -/
def State.busy (s : State) : Bool := decide (s.phase = .busy)

/-- The byte RD_STATUS returns: bit BUSY_BIT is `flag`, the other seven are those of `drawn` (R106). -/
def statusByte (bit : Fin 8) (flag : Bool) (drawn : Byte) : Byte :=
  let one : Byte := 1#8 <<< bit.val
  bif flag then drawn ||| one else drawn &&& ~~~ one

/-- What software reads from the byte the block answered last: `rdata[BUSY_BIT]` (R89). -/
def State.readsBusy (s : State) : Bool := decodeStatusByte s.cfg s.rdata

end Sys2Proof.Machine
end

