-- ==== Sys2Proof/Machine/Flash.lean ====
section
/-! DEFINITION. The flash array as a canonical list of bytes: its form, reading and writing a byte (R14, R50) and a word (R22), the effects of erase and write (R125, R141), and the unspecified flash after a fault (R43, R203). -/

namespace Sys2Proof.Machine

/-- The canonical form from offset `lo` up: offsets strictly rising and below 1024, no entry equal to what
an unlisted offset reads as. -/
def Memory.wfFrom (lo : Nat) : Memory → Bool
  | [] => true
  | (k, b) :: rest => decide (lo ≤ k) && decide (k < flashBytes) && (b != unlistedByte) && wfFrom (k + 1) rest

/-- The canonical form of the flash. -/
def Memory.wf (m : Memory) : Bool := m.wfFrom 0

/-- FB(off) (R14). -/
def Memory.get : Memory → Nat → Byte
  | [], _ => unlistedByte
  | (k, b) :: rest, off => if off = k then b else Memory.get rest off

/-- FB(off) becomes `v`; writing what an unlisted offset reads as takes the entry away. -/
def Memory.set : Memory → Nat → Byte → Memory
  | [], off, v => if v = unlistedByte then [] else [(off, v)]
  | (k, b) :: rest, off, v =>
    if off < k then
      if v = unlistedByte then (k, b) :: rest else (off, v) :: (k, b) :: rest
    else if off = k then
      if v = unlistedByte then rest else (k, v) :: rest
    else (k, b) :: Memory.set rest off v

/-- FLASH[w] (R22): low byte at the even offset, high byte at the odd one (R50). -/
def Memory.word (m : Memory) (w : Nat) : FlashWord := m.get (2 * w + 1) ++ m.get (2 * w)

/-- FLASH[w] becomes `v`, both bytes together (R50, R56). -/
def Memory.setWord (m : Memory) (w : Nat) (v : FlashWord) : Memory :=
  (m.set (2 * w) (v.extractLsb' 0 8)).set (2 * w + 1) (v.extractLsb' 8 8)

/-- The first `n` words of the page that begins at word `base` become all ones (R125). -/
def Memory.eraseWords (m : Memory) (base : Nat) : Nat → Memory
  | 0 => m
  | n + 1 => (m.eraseWords base n).setWord (base + n) erasedWord

/-- `for i in 0..7: FLASH[8*p + i] <- 0xFFFF` (R125). -/
def Memory.erasePage (m : Memory) (p : PageNo) : Memory := m.eraseWords (pageWords * p.toNat) pageWords

/-- `FLASH[w] <- FLASH[w] AND v` (R141). -/
def Memory.programWord (m : Memory) (w : WordIndex) (v : FlashWord) : Memory :=
  m.setWord w.toNat (m.word w.toNat &&& v)

/-- The flash change of a pending effect (R179). -/
def Memory.apply (m : Memory) : Effect → Memory
  | .noEffect => m
  | .erasePage p => m.erasePage p
  | .writeWord w v => m.programWord w v

/-- An unspecified flash, the byte at each offset given by `draw`, from offset `lo` on for `n` offsets. -/
def Memory.ofDraw (draw : Nat → Byte) (lo : Nat) : Nat → Memory
  | 0 => []
  | n + 1 =>
    let rest := Memory.ofDraw draw (lo + 1) n
    if draw lo = unlistedByte then rest else (lo, draw lo) :: rest

/-- FLASH after a fault: all 512 words are unspecified (R43, R203), free values of the draw `n`. -/
def Memory.unspecified (n : Nat) : Memory := Memory.ofDraw (Config.freeFlash n) 0 flashBytes

end Sys2Proof.Machine
end

