-- ==== Sys2Proof/Machine/Ops.lean ====
section
/-! DEFINITION. The shared operations: setting a mark (R43, R44, R110), the aging of the phase (R176 to R178), the end of a cycle with its answer (R80, R100), and the outcomes that many cells of the dispatch table share (R108, R109, R111 to R113). There is no exception entry or return (R200, R206, R207): the marks are what the spec has in their place. -/

namespace Sys2Proof.Machine

/-! ### Marks -/

/-- `fault(r)`: the mark keeps the first reason recorded (R110). -/
def markFault (r : Fault) (s : State) : State := { s with fault := some (s.fault.getD r) }

/-- `refuse(r)`: the mark keeps the first reason recorded (R110). -/
def markRefused (r : Refusal) (s : State) : State := { s with refused := some (s.refused.getD r) }

/-- Once `fault` is set the flash is unspecified, at every step anew (R43, R203; log 5). -/
def unspecifyFlash (s : State) : State :=
  match s.fault with
  | none => s
  | some _ => { s with flash := Memory.unspecified s.draws }

/-! ### Aging -/

/-- R176: one more cycle in CmdLoaded; at the bound the command is disarmed. -/
def ageCmdLoaded (s : State) : State :=
  if s.age + 1 = s.cfg.ceWindow then { s with age := s.age + 1, phase := .idle }
  else { s with age := s.age + 1 }

/-- R177: one cycle of the trigger window less; at zero it closes and the latch is cleared. -/
def ageArmed (s : State) : State :=
  if s.ew - 1 = 0 then { s with ew := 0, phase := .idle, lat := none }
  else { s with ew := s.ew - 1 }

/-- R178: one owed no-op cycle less; after the last the flash operation runs. -/
def ageTriggered (s : State) : State :=
  if s.tn - 1 = 0 then { s with tn := 0, phase := .busy }
  else { s with tn := s.tn - 1 }

/-- The aging rule of the phase (R100): in Triggered it applies to NOP only (R178), in Idle and Busy there
is none (R181). -/
def aging (isNop : Bool) (s : State) : State :=
  match s.phase with
  | .idle => s
  | .cmdLoaded => ageCmdLoaded s
  | .armed => ageArmed s
  | .triggered => bif isNop then ageTriggered s else s
  | .busy => s

/-! ### The end of a cycle -/

/-- The end of a cycle that answers `answer`, or nothing: then `rdata` is unspecified (R80), as it is after a
fault whatever the operation (R43). One draw is made. -/
def endCycle (answer : Option Byte) (s : State) : State :=
  let drawn := Config.freeByte s.draws
  let rdata := match s.fault with
    | none => answer.getD drawn
    | some _ => drawn
  { unspecifyFlash s with rdata := rdata, draws := s.draws + 1 }

/-- A cycle without an answer whose operation is not NOP and did not assign `phase` (R100). -/
def quietCycle (s : State) : State := endCycle none (aging false s)

/-- A cycle in which the operation is refused as interleaved (R111). -/
def interleavedCycle (s : State) : State := quietCycle (markRefused .interleaved s)

/-- A cycle in which the operation meets the two owed no-op cycles (R112). -/
def hazardCycle (s : State) : State := quietCycle (markFault .hazardViolation s)

/-- A cycle in which the operation writes while the flash operation runs (R113). -/
def busyWriteCycle (s : State) : State := quietCycle (markFault .busyViolation s)

/-- A cycle whose operation is refused in every phase, and is a hazard as well in Triggered (R108, R109). -/
def refusedCycle (r : Refusal) (s : State) : State :=
  match s.phase with
  | .triggered => hazardCycle (markRefused r s)
  | .idle => quietCycle (markRefused r s)
  | .cmdLoaded => quietCycle (markRefused r s)
  | .armed => quietCycle (markRefused r s)
  | .busy => quietCycle (markRefused r s)

/-! ### The trigger store -/

/-- The store that starts the loaded command (R121, R138): two no-op cycles are owed, the window and the
latch are closed. -/
def trigger (eff : Effect) (s : State) : State :=
  { s with eff := eff, tn := postTriggerNops, ew := 0, lat := none, phase := .triggered }

/-! ### The steps between two cycles -/

/-- What COMPLETE does (R179): the flash change, the effect consumed, Idle. -/
def completeStep (s : State) : State :=
  { s with flash := s.flash.apply s.eff, eff := .noEffect, phase := .idle }

/-- COMPLETE is enabled (R179). -/
def State.canComplete (s : State) : Bool := decide (s.phase = .busy) && s.fault.isNone

/-- The sequencer's own values after RESET (R220). CMD is a free value (R40). -/
def clearSequencer (s : State) : State :=
  { s with phase := .idle, age := 0, ew := 0, tn := 0, lat := none, eff := .noEffect, cmd := Config.freeCmd s.draws }

/-- What RESET does (R220, R221). -/
def resetStep (s : State) : State :=
  let cut := match s.phase with
    | .triggered => markFault .interrupted s
    | .busy => markFault .interrupted s
    | .idle => s
    | .cmdLoaded => s
    | .armed => s
  { unspecifyFlash (clearSequencer cut) with draws := s.draws + 1 }

end Sys2Proof.Machine
end

