-- ==== Sys2Proof/Machine/Register.lean ====
section
/-! DEFINITION. The meanings of NOP and of the operations on the three interface registers and on the reserved selects (spec/40_register_interface.md), cell by cell of the dispatch table of R100. -/

namespace Sys2Proof.Machine

/-! ### NOP -/

/-- One cycle of NOP: nothing, then the aging of the phase (R101). -/
def nopCycle (s : State) : State := endCycle none (aging true s)

/-- NOP (R101). -/
def execNop (s : State) : Host.Outcome State Fault Refusal := .next (nopCycle s)

/-! ### WR_CMD -/

/-- `data` is one of the two command codes (R87). -/
def legalCode (c : Config) (data : Byte) : Bool := data == c.pageEraseCode || data == c.wordWriteCode

/-- R102: the command is loaded. -/
def loadCommand (data : Byte) (s : State) : State :=
  { s with cmd := data, age := 0, lat := none, phase := .cmdLoaded }

/-- R103: a code that is neither is refused, in every phase. -/
def refuseReserved (data : Byte) (s : State) : State :=
  bif legalCode s.cfg data then s else markRefused .reservedCommand s

/-- One cycle of WR_CMD (R102, R103, R111 to R113). -/
def wrCmdCycle (data : Byte) (s : State) : State :=
  match s.phase with
  | .idle =>
    bif legalCode s.cfg data then endCycle none (loadCommand data s)
    else quietCycle (refuseReserved data s)
  | .cmdLoaded => bif legalCode s.cfg data then interleavedCycle s else quietCycle (refuseReserved data s)
  | .armed => bif legalCode s.cfg data then interleavedCycle s else quietCycle (refuseReserved data s)
  | .triggered => hazardCycle (refuseReserved data s)
  | .busy => busyWriteCycle (refuseReserved data s)

/-- WR_CMD (R102, R103). -/
def execWrCmd (data : Byte) (s : State) : Host.Outcome State Fault Refusal := .next (wrCmdCycle data s)

/-! ### WR_PROT -/

/-- R104: the pending command is armed. -/
def armCommand (s : State) : State := { s with ew := enableWindow, lat := none, phase := .armed }

/-- One cycle of WR_PROT (R104, R105, R111 to R113). -/
def wrProtCycle (data : Byte) (s : State) : State :=
  match s.phase with
  | .idle => quietCycle s
  | .cmdLoaded => if data = s.cfg.enableCode then endCycle none (armCommand s) else interleavedCycle s
  | .armed => interleavedCycle s
  | .triggered => hazardCycle s
  | .busy => busyWriteCycle s

/-- WR_PROT (R104, R105). -/
def execWrProt (data : Byte) (s : State) : Host.Outcome State Fault Refusal := .next (wrProtCycle data s)

/-! ### RD_STATUS -/

/-- The status byte of this cycle: BUSY and seven drawn bits (R106). -/
def State.status (s : State) : Byte := statusByte s.cfg.busyBit s.busy (Config.freeByte s.draws)

/-- One cycle of RD_STATUS (R106, R111, R112). -/
def rdStatusCycle (s : State) : State :=
  match s.phase with
  | .idle => endCycle (some s.status) s
  | .busy => endCycle (some s.status) s
  | .cmdLoaded => interleavedCycle s
  | .armed => interleavedCycle s
  | .triggered => hazardCycle s

/-- RD_STATUS (R106). -/
def execRdStatus (s : State) : Host.Outcome State Fault Refusal := .next (rdStatusCycle s)

/-! ### The refused operations -/

/-- One cycle of RD_CMD (R108). -/
def rdCmdCycle (s : State) : State := refusedCycle .unreadableRegister s

/-- RD_CMD (R108). -/
def execRdCmd (s : State) : Host.Outcome State Fault Refusal := .next (rdCmdCycle s)

/-- One cycle of RD_PROT (R108). -/
def rdProtCycle (s : State) : State := refusedCycle .unreadableRegister s

/-- RD_PROT (R108). -/
def execRdProt (s : State) : Host.Outcome State Fault Refusal := .next (rdProtCycle s)

/-- One cycle of WR_STATUS (R108); its data is written nowhere. -/
def wrStatusCycle (_data : Byte) (s : State) : State := refusedCycle .unwritableRegister s

/-- WR_STATUS (R108). -/
def execWrStatus (data : Byte) (s : State) : Host.Outcome State Fault Refusal := .next (wrStatusCycle data s)

/-- One cycle of RSVD_SEL, the row sel = 1x1 (R109). -/
def rsvdSelOddCycle (_mid : BitVec 1) (s : State) : State := refusedCycle .reservedSelect s

/-- RSVD_SEL, sel = 101 or 111 (R109). -/
def execRsvdSelOdd (mid : BitVec 1) (s : State) : Host.Outcome State Fault Refusal := .next (rsvdSelOddCycle mid s)

/-- One cycle of RSVD_SEL, the row sel = 110 (R109). -/
def rsvdSelSixCycle (s : State) : State := refusedCycle .reservedSelect s

/-- RSVD_SEL, sel = 110 (R109). -/
def execRsvdSelSix (s : State) : Host.Outcome State Fault Refusal := .next (rsvdSelSixCycle s)

end Sys2Proof.Machine
end

