-- ==== Sys2Proof/Machine/Codes.lean ====
section
/-! DEFINITION. The meanings of the code rows of the table: the values of `data` in WR_CMD and WR_PROT that have a name (R87, R88), and the one defined field of the status byte (R89). Each is the register operation that carries it (DEDUCED, log 12). -/

namespace Sys2Proof.Machine

/-- PAGE_ERASE: the page-erase command code is written to CMD (R87, R120). -/
def execPageErase (s : State) : Host.Outcome State Fault Refusal := .next (wrCmdCycle s.cfg.pageEraseCode s)

/-- WORD_WRITE: the word-write command code is written to CMD (R87, R135). -/
def execWordWrite (s : State) : Host.Outcome State Fault Refusal := .next (wrCmdCycle s.cfg.wordWriteCode s)

/-- CMD_RESERVED: another value is written to CMD (R87, R103). -/
def execCmdReserved (code : Byte) (s : State) : Host.Outcome State Fault Refusal := .next (wrCmdCycle code s)

/-- ENABLE: the self-programming enable code is written to PROT (R88, R104). -/
def execEnable (s : State) : Host.Outcome State Fault Refusal := .next (wrProtCycle s.cfg.enableCode s)

/-- What software keeps of the status byte it read: the busy flag, as the value 0 or 1 (R89). -/
def keepBusy (s : State) : State := { s with result := bif s.readsBusy then 1#16 else 0#16 }

/-- BUSY: the status byte is read and its one defined field kept (R89, R106). -/
def execBusy (s : State) : Host.Outcome State Fault Refusal := .next (keepBusy (rdStatusCycle s))

end Sys2Proof.Machine
end

