-- ==== Sys2Proof/Machine/Translator.lean ====
section
/-! DEFINITION. The address translator (spec/44_address_translator.md): the fields of a flash byte offset (R161), geometry to address (R163 to R165) and address to offset, each refused outside its domain (R167). -/

namespace Sys2Proof.Machine

/-- PADDR = off[9:4] (R161). -/
def paddr (off : Offset) : PageNo := off.extractLsb' 4 6

/-- WADDR = off[3:1] (R161). -/
def waddr (off : Offset) : BitVec 3 := off.extractLsb' 1 3

/-- BSEL = off[0] (R161): the byte is the high byte of its word. -/
def bsel (off : Offset) : Bool := off.getLsbD 0

/-- W = off[9:1] (R161). -/
def wordIndex (off : Offset) : WordIndex := off.extractLsb' 1 9

/-- `flash_offset(addr)`, defined for addresses in the window (R161, R167). -/
def flashOffset (c : Config) (addr : Nat) : Except Refusal Offset :=
  if c.InWindow addr then .ok (BitVec.ofNat 10 (addr - c.flashMapBase)) else .error .translatorDomain

/-- `abs_addr(p, w, b)`, defined for p ≤ 63, w ≤ 7 and b ≤ 1 (R163, R167). -/
def absAddr (c : Config) (p w b : Nat) : Except Refusal Nat :=
  if p ≤ 63 ∧ w ≤ 7 ∧ b ≤ 1 then .ok (c.flashMapBase + 16 * p + 2 * w + b) else .error .translatorDomain

/-- `page_base(p)` (R164), the address of byte 0 of word 0 of the page. -/
def pageBase (c : Config) (p : Nat) : Except Refusal Nat := absAddr c p 0 0

/-- `block_base` (R165): total flash size less page size above the base. -/
def blockBase (c : Config) : Nat := c.flashMapBase + flashBytes - pageBytes

/-- `block_address(k)`, defined for k ≤ 15 (R165, R167). -/
def blockAddress (c : Config) (k : Nat) : Except Refusal Nat :=
  if k ≤ 15 then .ok (blockBase c + k) else .error .translatorDomain

end Sys2Proof.Machine
end

