-- ==== Sys2Proof/Machine/Operands.lean ====
section
/-! DEFINITION. The operand forms: the flash byte at an offset (R150), the sub-address of a trigger store (R122, R123), and the stores of a word write (R136 to R139). There are no register operands and no immediates (R20, R85). -/

namespace Sys2Proof.Machine

/-- FB(off), the byte a load from the window addresses (R14, R150). -/
def State.flashByte (s : State) (off : Offset) : Byte := s.flash.get off.toNat

/-- FLASH[w] (R22). -/
def State.flashWord (s : State) (w : WordIndex) : FlashWord := s.flash.word w.toNat

/-- The effect an erase trigger store selects: the page of an odd offset (R122), none at an even one (R123). -/
def eraseEffect (off : Offset) : Effect := if bsel off then .erasePage (paddr off) else .noEffect

/-- What a store under an armed WORD_WRITE is (R136). -/
inductive WriteStore where
  /-- R137: the low byte, to be latched. -/
  | first
  /-- R138: the high byte at the latched offset plus one, which commits this effect. -/
  | second (eff : Effect)
  /-- R139. -/
  | malformed
deriving DecidableEq, Repr

/-- The dispatch of R136. The value is `{data, b}` and the word index `o[9:1]` (R138). -/
def writeStore (lat : Option Latch) (off : Offset) (data : Byte) : WriteStore :=
  match lat with
  | none => if bsel off then .malformed else .first
  | some l =>
    if off.toNat = l.off.toNat + 1 then .second (.writeWord (wordIndex l.off) (data ++ l.byte)) else .malformed

end Sys2Proof.Machine
end

