-- ==== Sys2Proof/Machine/FlashAccess.lean ====
section
/-! DEFINITION. The meanings of LD_FLASH and ST_FLASH (spec/41_page_erase.md, spec/42_word_write.md, spec/43_flash_access.md). -/

namespace Sys2Proof.Machine

/-! ### LD_FLASH -/

/-- One cycle of LD_FLASH: the byte in Idle (R150), any byte in Busy (R151), off the path R111 and R112. -/
def ldFlashCycle (off : Offset) (s : State) : State :=
  match s.phase with
  | .idle => endCycle (some (s.flashByte off)) s
  | .busy => endCycle none s
  | .cmdLoaded => interleavedCycle s
  | .armed => interleavedCycle s
  | .triggered => hazardCycle s

/-- LD_FLASH (R150, R151). -/
def execLdFlash (off : Offset) (s : State) : Host.Outcome State Fault Refusal := .next (ldFlashCycle off s)

/-! ### ST_FLASH -/

/-- A cycle with a store where no command is armed (R152). -/
def unarmedCycle (s : State) : State := quietCycle (markFault .unarmedFlashStore s)

/-- The erase trigger store in Armed (R121); its data is not used (R124). -/
def eraseStoreCycle (off : Offset) (s : State) : State := endCycle none (trigger (eraseEffect off) s)

/-- A store of a word write in Armed (R136 to R139). The first one does not assign `phase`, so its cycle
counts against the window (R137). -/
def writeStoreCycle (off : Offset) (data : Byte) (s : State) : State :=
  match writeStore s.lat off data with
  | .first => quietCycle { s with lat := some { off := off, byte := data } }
  | .second eff => endCycle none (trigger eff s)
  | .malformed => quietCycle (markFault .malformedWrite s)

/-- A store in Armed, by the loaded command (R100). No run reaches Armed with another value in CMD (R35);
the spec gives such a store no meaning, so it is refused (log 18). -/
def armedStoreCycle (off : Offset) (data : Byte) (s : State) : State :=
  if s.cmd = s.cfg.pageEraseCode then eraseStoreCycle off s
  else if s.cmd = s.cfg.wordWriteCode then writeStoreCycle off data s
  else quietCycle (markRefused .reservedCommand s)

/-- One cycle of ST_FLASH (R100, R112, R113, R121, R136, R152). -/
def stFlashCycle (off : Offset) (data : Byte) (s : State) : State :=
  match s.phase with
  | .idle => unarmedCycle s
  | .cmdLoaded => unarmedCycle s
  | .armed => armedStoreCycle off data s
  | .triggered => hazardCycle s
  | .busy => busyWriteCycle s

/-- ST_FLASH (R121, R136, R152). -/
def execStFlash (off : Offset) (data : Byte) (s : State) : Host.Outcome State Fault Refusal :=
  .next (stFlashCycle off data s)

end Sys2Proof.Machine
end

