-- ==== Sys2Proof/Machine/Driver.lean ====
section
/-! DEFINITION. The meanings of the driver's pseudo-operations (spec/46_driver_sequences.md): each runs its expansion (Decode.lean), one bus cycle per operation, and then, where it polls, the busy-wait loop with the controller's COMPLETE (log 14). -/

namespace Sys2Proof.Machine

/-- One cycle of a bus operation. The rows below `rsvdSelSix` are no bus operation and occur in no expansion. -/
def cycleOf (i : Instr) (s : State) : State :=
  match i with
  | .nop => nopCycle s
  | .rdCmd => rdCmdCycle s
  | .wrCmd data => wrCmdCycle data s
  | .rdProt => rdProtCycle s
  | .wrProt data => wrProtCycle data s
  | .rdStatus => rdStatusCycle s
  | .wrStatus data => wrStatusCycle data s
  | .ldFlash off => ldFlashCycle off s
  | .stFlash off data => stFlashCycle off data s
  | .rsvdSelOdd mid => rsvdSelOddCycle mid s
  | .rsvdSelSix => rsvdSelSixCycle s
  | .pageErase => s
  | .wordWrite => s
  | .cmdReserved _ => s
  | .enable => s
  | .busy => s
  | .complete => s
  | .reset => s
  | .readByte _ => s
  | .writeByte _ _ => s
  | .waitNotBusy _ _ => s
  | .erasePage _ _ _ _ _ _ _ => s
  | .writeWord _ _ _ _ _ _ _ => s
  | .readWord _ _ => s

/-- The operations, one cycle each, in order (R64). DESIGN CHOICE (log 26): R179 lets COMPLETE fall between any
two cycles that begin in Busy; here it falls between none of them. -/
def runOps : List Instr → State → State
  | [], s => s
  | i :: rest, s => runOps rest (cycleOf i s)

/-! ### The busy-wait loop (R185) -/

/-- RD_STATUS has an answer here: the phase is Idle or Busy (R106) and no fault is set (R43). -/
def State.answersPoll (s : State) : Bool :=
  (decide (s.phase = .idle) || decide (s.phase = .busy)) && s.fault.isNone

/-- The controller takes its step if it can (R179). -/
def completeIfBusy (s : State) : State := bif s.canComplete then completeStep s else s

/-- The loop of R185. Each element of the list is a poll made before COMPLETE is taken, with its gap; when
the list is used up COMPLETE is taken and the last poll made, with the gap `last`. A poll that has no answer
leaves the rest of the loop without a meaning: it ends there, with the mark that the poll has set (log 15). -/
def pollLoop : List Nat → Nat → State → State
  | [], last, s =>
    let t := rdStatusCycle (completeIfBusy s)
    bif (completeIfBusy s).answersPoll then runOps (nopOps last) t else t
  | g :: rest, last, s =>
    let t := rdStatusCycle s
    bif s.answersPoll then
      bif t.readsBusy then pollLoop rest last (runOps (nopOps g) t) else runOps (nopOps g) t
    else t

/-- wait_not_busy (R185). -/
def execWaitNotBusy (polls : List Nat) (last : Nat) (s : State) : Host.Outcome State Fault Refusal :=
  .next (pollLoop polls last s)

/-! ### The sequences -/

/-- A driver operation on `addr` outside the translator's domain is refused, and no cycle is spent (R167). -/
def inDomain (ok : Bool) (run : State) (s : State) : State :=
  bif ok then run else markRefused .translatorDomain s

/-- erase_page A (R186). -/
def execErasePage (addr : Nat) (dummy : Byte) (g1 g2 more : Nat) (polls : List Nat) (last : Nat) (s : State) :
    Host.Outcome State Fault Refusal :=
  .next (inDomain (decide (s.cfg.InWindow addr))
    (pollLoop polls last (runOps (eraseOps s.cfg addr dummy g1 g2 more) s)) s)

/-- write_word A, W (R188). -/
def execWriteWord (addr : Nat) (word : FlashWord) (g1 g2 g3 : Nat) (polls : List Nat) (last : Nat) (s : State) :
    Host.Outcome State Fault Refusal :=
  .next (inDomain (decide (s.cfg.InWindow addr))
    (pollLoop polls last (runOps (writeOps s.cfg addr word g1 g2 g3) s)) s)

/-- The two loads of read_word and what it returns, `{hi, lo}` (R190). DESIGN CHOICE (log 26): from Busy, where
R179 lets COMPLETE fall between the two loads, none is taken there; R190 asks for Idle. -/
def readWordRun (addr gap : Nat) (s : State) : State :=
  let afterLow := cycleOf (memReadOp s.cfg addr) s
  let afterHigh := cycleOf (memReadOp s.cfg (addr + 1)) (runOps (nopOps gap) afterLow)
  { afterHigh with result := afterHigh.rdata ++ afterLow.rdata }

/-- read_word A (R190). -/
def execReadWord (addr gap : Nat) (s : State) : Host.Outcome State Fault Refusal :=
  .next (inDomain (decide (s.cfg.InWindow addr)) (readWordRun addr gap s) s)

/-- read_byte A (R191): the operation the address decoder chooses; its value is `rdata`. -/
def execReadByte (addr : Nat) (s : State) : Host.Outcome State Fault Refusal :=
  .next (inDomain (decide (addr < 2 ^ s.cfg.addrWidth)) (cycleOf (memReadOp s.cfg addr) s) s)

/-- write_byte A, v (R192): the operation the address decoder chooses. -/
def execWriteByte (addr : Nat) (value : Byte) (s : State) : Host.Outcome State Fault Refusal :=
  .next (inDomain (decide (addr < 2 ^ s.cfg.addrWidth)) (cycleOf (memWriteOp s.cfg addr value) s) s)

end Sys2Proof.Machine
end

