-- ==== Sys2Proof/Machine/Internal.lean ====
section
/-! DEFINITION. The meanings of the steps that are not presented on the bus: COMPLETE (R179) and RESET (R220, R221). -/

namespace Sys2Proof.Machine

/-- COMPLETE (R179): "Enabled when `phase = Busy` and `fault = None`"; elsewhere there is no such step, and
it is refused (log 13). -/
def execComplete (s : State) : Host.Outcome State Fault Refusal :=
  bif s.canComplete then .next (completeStep s) else .refused .notEnabled

/-- RESET (R220, R221). -/
def execReset (s : State) : Host.Outcome State Fault Refusal := .next (resetStep s)

end Sys2Proof.Machine
end

