-- ==== Sys2Proof/Machine/Dispatch.lean ====
section
/-! DEFINITION. One arm per constructor of Instr, each one call of its meaning. -/

namespace Sys2Proof.Machine

def exec (i : Instr) (s : State) : Host.Outcome State Fault Refusal :=
  match i with
  -- format BUS
  | .nop => Sys2Proof.Machine.execNop s
  | .rdCmd => Sys2Proof.Machine.execRdCmd s
  | .wrCmd data => Sys2Proof.Machine.execWrCmd data s
  | .rdProt => Sys2Proof.Machine.execRdProt s
  | .wrProt data => Sys2Proof.Machine.execWrProt data s
  | .rdStatus => Sys2Proof.Machine.execRdStatus s
  | .wrStatus data => Sys2Proof.Machine.execWrStatus data s
  | .ldFlash off => Sys2Proof.Machine.execLdFlash off s
  | .stFlash off data => Sys2Proof.Machine.execStFlash off data s
  | .rsvdSelOdd mid => Sys2Proof.Machine.execRsvdSelOdd mid s
  | .rsvdSelSix => Sys2Proof.Machine.execRsvdSelSix s
  -- formats CMDCODE, PROTCODE, STATUSBYTE
  | .pageErase => Sys2Proof.Machine.execPageErase s
  | .wordWrite => Sys2Proof.Machine.execWordWrite s
  | .cmdReserved code => Sys2Proof.Machine.execCmdReserved code s
  | .enable => Sys2Proof.Machine.execEnable s
  | .busy => Sys2Proof.Machine.execBusy s
  -- format STEP
  | .complete => Sys2Proof.Machine.execComplete s
  | .reset => Sys2Proof.Machine.execReset s
  -- format PSEUDO
  | .readByte addr => Sys2Proof.Machine.execReadByte addr s
  | .writeByte addr value => Sys2Proof.Machine.execWriteByte addr value s
  | .waitNotBusy polls last => Sys2Proof.Machine.execWaitNotBusy polls last s
  | .erasePage addr dummy g1 g2 more polls last => Sys2Proof.Machine.execErasePage addr dummy g1 g2 more polls last s
  | .writeWord addr word g1 g2 g3 polls last => Sys2Proof.Machine.execWriteWord addr word g1 g2 g3 polls last s
  | .readWord addr gap => Sys2Proof.Machine.execReadWord addr gap s

end Sys2Proof.Machine
end

