-- ==== Sys2Proof/Machine/Schedule.lean ====
section
/-! DEFINITION. Which agent acts next (R175): the head of the agenda, decoded if it is a transaction word, and what happens when the agenda is used up (log 2, 3). -/

namespace Sys2Proof.Machine

/-- The instruction an event stands for: Cycle(T) is the operation T decodes to (R81, R175). -/
def Event.instr : Event → Instr
  | .word T => decode T
  | .act i => i

/-- With nothing left on the agenda the host presents NOP (R83), and a pending COMPLETE, which is not
postponed for ever (R180), is taken. -/
def State.idleInstr (s : State) : Instr := bif s.canComplete then .complete else .nop

/-- What happens next, and the state it happens in. -/
def State.fetch (s : State) : Instr × State :=
  match s.agenda with
  | [] => (s.idleInstr, s)
  | e :: rest => (e.instr, { s with agenda := rest })

/-- The event that presents the `nbits` bits `w`: a code byte is written to its register, anything else is
a transaction word (log 19). -/
def State.presented (s : State) (nbits w : Nat) : Event :=
  if nbits = 8 then .act (decodeCode s.cfg (BitVec.ofNat 8 w)) else .word (BitVec.ofNat 22 (w % 2 ^ nbits))

/-- The `nbits` bits `w` of the host come next. -/
def State.present (s : State) (nbits w : Nat) : State := { s with agenda := s.presented nbits w :: s.agenda }

end Sys2Proof.Machine
end

