-- ==== Sys2Proof/Machine/Step.lean ====
section
/-! DEFINITION. One step of the machine: Cycle(T), COMPLETE or RESET, or a driver operation run as a whole (R175). -/

namespace Sys2Proof.Machine

/-- The next event happens. -/
def step (s : State) : Host.Outcome State Fault Refusal := exec s.fetch.1 s.fetch.2

/-- The block fetches nothing (R21): its next operation is the one the host presents next. -/
def State.withFetchWord (s : State) (nbits w : Nat) : State := s.present nbits w

end Sys2Proof.Machine
end

