-- ==== Sys2Proof/Safety.lean ====
section
/-! DEFINITION. What counts as a good state: no mark set (R43, R44), the invariant of R35 with what it rests on, what a cycle that only ages its window leaves (R176, R177), and the edges of the phase graph (R182). -/

namespace Sys2Proof.Machine

/-- No mark is set: the state may be a good final state of a run (R43, R44). -/
abbrev State.Clean (s : State) : Prop := s.fault = none ∧ s.refused = none

/-- The invariant of R35, with the canonical form of the flash, the even offset of a latch (R32), and no
effect pending outside Triggered and Busy (R33). R35 states its four clauses for every reachable state
without `fault`; the model's sequencer keeps them with a fault too. -/
structure State.Inv (s : State) : Prop where
  cfgValid  : s.cfg.Valid
  flashWf   : s.flash.wf = true
  cmdLoaded : s.phase = .cmdLoaded → legalCode s.cfg s.cmd = true ∧ s.age < s.cfg.ceWindow
  armed     : s.phase = .armed → legalCode s.cfg s.cmd = true ∧ 1 ≤ s.ew ∧ s.ew ≤ 4
  latched   : ∀ l, s.lat = some l → s.phase = .armed ∧ s.cmd = s.cfg.wordWriteCode ∧ bsel l.off = false
  triggered : s.phase = .triggered → 1 ≤ s.tn ∧ s.tn ≤ 2
  pending   : s.eff ≠ .noEffect → s.phase = .triggered ∨ s.phase = .busy

/-- From `s` to `t` nothing happens to the block but the aging of its window and, it may be, its marks: what
"no state other than the mark changes" says of a refused operation (R103, R108, R109, R111), whose cycle ages
the window (R176, R177). The answer of the cycle is unspecified (R80). -/
structure OnlyAges (s t : State) : Prop where
  cfg       : t.cfg = s.cfg
  agenda    : t.agenda = s.agenda
  result    : t.result = s.result
  cmd       : t.cmd = s.cmd
  eff       : t.eff = s.eff
  tn        : t.tn = s.tn
  rdata     : t.rdata = Config.freeByte s.draws
  flash     : t.fault = none → t.flash = s.flash
  still     : s.phase = .idle ∨ s.phase = .triggered ∨ s.phase = .busy →
    t.phase = s.phase ∧ t.age = s.age ∧ t.ew = s.ew ∧ t.lat = s.lat
  cmdLoaded : s.phase = .cmdLoaded → t.age = s.age + 1 ∧ t.ew = s.ew ∧ t.lat = s.lat ∧
    t.phase = (if s.age + 1 = s.cfg.ceWindow then .idle else .cmdLoaded)
  armed     : s.phase = .armed → t.age = s.age ∧ t.ew = s.ew - 1 ∧
    t.phase = (if s.ew - 1 = 0 then .idle else .armed) ∧ t.lat = (if s.ew - 1 = 0 then none else s.lat)

/-- The edges of the phase graph that leave a phase (R182): `i` takes the block from phase `p` to phase `q`. -/
inductive PhaseEdge (c : Config) : Phase → Instr → Phase → Prop where
  /-- R102. -/
  | load (d : Byte) (h : legalCode c d = true) : PhaseEdge c .idle (.wrCmd d) .cmdLoaded
  /-- R104. -/
  | arm : PhaseEdge c .cmdLoaded (.wrProt c.enableCode) .armed
  /-- R176, under any operation of the bus. -/
  | lapseCmdLoaded (i : Instr) : PhaseEdge c .cmdLoaded i .idle
  /-- R121, R138. -/
  | trigger (off : Offset) (d : Byte) : PhaseEdge c .armed (.stFlash off d) .triggered
  /-- R177, under any operation of the bus. -/
  | lapseArmed (i : Instr) : PhaseEdge c .armed i .idle
  /-- R178. -/
  | start : PhaseEdge c .triggered .nop .busy
  /-- R179. -/
  | complete : PhaseEdge c .busy .complete .idle
  /-- R220. -/
  | reset (p : Phase) : PhaseEdge c p .reset .idle

/-- The page of a word index, w[8:3] (R22). -/
def pageOf (w : WordIndex) : PageNo := w.extractLsb' 3 6

end Sys2Proof.Machine
end

