-- ==== Sys2Proof/Certificates/Slice0/Obligations.lean ====
section
/-! DEFINITION. The statements for the provers, from the numbered rules of spec/. A statement about one cycle gives the whole next state as an update of `s` wherever the rule fixes it: the fields not named are the frame. `Config.freeByte s.draws` in such an update is the unspecified `rdata` of the cycle (R80, log 9). -/

open Sys2Proof Sys2Proof.Machine

/-! ### Encoding -/

/-- R80 to R82, R87, R88: an operation of the bus is read back from its one transaction word; a command or
enable code is read back from the data of the register write that carries it. -/
def Obligations.EncodedInstructionsDecodeBack : Prop :=
  ∀ (c : Config) (i : Instr), i.wellFormed c = true →
    (i.isBus = true → ∃ T, encode c i = [T] ∧ decode T = i) ∧
    (∀ code, i = .cmdReserved code → ∃ T d, encode c i = [T] ∧ decode T = .wrCmd d ∧ decodeCmdCode c d = i) ∧
    (i = .pageErase → ∃ T d, encode c i = [T] ∧ decode T = .wrCmd d ∧ decodeCmdCode c d = i) ∧
    (i = .wordWrite → c.Valid → ∃ T d, encode c i = [T] ∧ decode T = .wrCmd d ∧ decodeCmdCode c d = i) ∧
    (i = .enable → ∃ T d, encode c i = [T] ∧ decode T = .wrProt d ∧ decodeProtCode c d = some i)

/-- R81: every transaction word selects exactly one row of the table, and decodes to the operation of that
row. -/
def Obligations.EveryWordSelectsOneRow : Prop :=
  ∀ T : Transaction, (busRows.filter fun r => r.selects T).map (·.name) = [mnemonic (decode T)]

/-- R82: the bits a decoder must ignore never change what is decoded, and the encoder writes them as zero. -/
def Obligations.IgnoredBitsNeverMatter : Prop :=
  (∀ T T' : Transaction, selOf T = selOf T' →
    (selOf T = 0b000#3 → decode T = decode T') ∧
    (rwOf T = rwOf T' →
      ((selOf T = 0b001#3 ∨ selOf T = 0b010#3) → rwOf T = true → dataOf T = dataOf T' → decode T = decode T') ∧
      (selOf T = 0b011#3 → rwOf T = false → decode T = decode T') ∧
      (selOf T = 0b100#3 → rwOf T = false → offOf T = offOf T' → decode T = decode T'))) ∧
  (∀ (d : Byte) (off : Offset) (T : Transaction),
    (encodeOp .nop = some T → rwOf T = false ∧ offOf T = 0#10 ∧ dataOf T = 0#8) ∧
    (encodeOp (.wrCmd d) = some T ∨ encodeOp (.wrProt d) = some T → offOf T = 0#10) ∧
    (encodeOp .rdStatus = some T → offOf T = 0#10 ∧ dataOf T = 0#8) ∧
    (encodeOp (.ldFlash off) = some T → dataOf T = 0#8))

/-- R81, words of spec/95 section 2.1 (E1 to E14), one for each operation of the bus. -/
def Obligations.SpecWordsDecode : Prop :=
  decode 0x200000#22 = .nop ∧ decode 0x03FFFF#22 = .nop ∧ decode 0x040000#22 = .rdCmd ∧
  decode 0x27FF18#22 = .wrCmd 0x18#8 ∧ decode 0x080000#22 = .rdProt ∧ decode 0x2800E7#22 = .wrProt 0xE7#8 ∧
  decode 0x0FFFFF#22 = .rdStatus ∧ decode 0x2C0080#22 = .wrStatus 0x80#8 ∧
  decode 0x13F1AA#22 = .ldFlash 0x3F1#10 ∧ decode 0x33FFFF#22 = .stFlash 0x3FF#10 0xFF#8 ∧
  decode 0x140000#22 = .rsvdSelOdd 0#1 ∧ decode 0x3C0000#22 = .rsvdSelOdd 1#1 ∧
  decode 0x180000#22 = .rsvdSelSix ∧ decode 0x380000#22 = .rsvdSelSix

/-- R83: the address decoder, in its four cases and for every other address. -/
def Obligations.AddressDecoderSelects : Prop :=
  ∀ (c : Config) (rw : Bool) (addr : Nat) (data : Byte), c.Valid →
    rwOf (addrDecode c rw addr data) = rw ∧ dataOf (addrDecode c rw addr data) = data ∧
    (c.InWindow addr → selOf (addrDecode c rw addr data) = 0b100#3 ∧
      (offOf (addrDecode c rw addr data)).toNat = addr - c.flashMapBase) ∧
    (¬ c.InWindow addr → offOf (addrDecode c rw addr data) = 0#10) ∧
    (addr = c.cmdAddr → selOf (addrDecode c rw addr data) = 0b001#3) ∧
    (addr = c.protAddr → selOf (addrDecode c rw addr data) = 0b010#3) ∧
    (addr = c.statusAddr → selOf (addrDecode c rw addr data) = 0b011#3) ∧
    (¬ c.InWindow addr → addr ≠ c.cmdAddr → addr ≠ c.protAddr → addr ≠ c.statusAddr →
      selOf (addrDecode c rw addr data) = 0b000#3)

/-! ### The address translator -/

/-- R169: the two halves of the translator undo each other, and the reserved block is in page 63. -/
def Obligations.TranslatorRoundTrips : Prop :=
  ∀ c : Config,
    (∀ p w b : Nat, p ≤ 63 → w ≤ 7 → b ≤ 1 → ∃ addr off, absAddr c p w b = .ok addr ∧
      flashOffset c addr = .ok off ∧ (paddr off).toNat = p ∧ (waddr off).toNat = w ∧ (bsel off).toNat = b) ∧
    (∀ addr, c.InWindow addr → ∃ off, flashOffset c addr = .ok off ∧
      absAddr c (paddr off).toNat (waddr off).toNat (bsel off).toNat = .ok addr) ∧
    (∀ k, k ≤ 15 → ∃ addr off, blockAddress c k = .ok addr ∧ flashOffset c addr = .ok off ∧ (paddr off).toNat = 63)

/-- R161: the fields of a flash byte offset, and the offset of an address in the window; R163 to R165: the
addresses built from geometry; R167: outside their domains the translator functions are refused. -/
def Obligations.TranslatorFormulas : Prop :=
  (∀ off : Offset, off.toNat = 16 * (paddr off).toNat + 2 * (waddr off).toNat + (bsel off).toNat ∧
    (wordIndex off).toNat = 8 * (paddr off).toNat + (waddr off).toNat) ∧
  (∀ (c : Config) (addr : Nat), c.InWindow addr → ∃ off, flashOffset c addr = .ok off ∧
    off.toNat = addr - c.flashMapBase) ∧
  (∀ (c : Config) (p w b : Nat), p ≤ 63 → w ≤ 7 → b ≤ 1 →
    absAddr c p w b = .ok (c.flashMapBase + 16 * p + 2 * w + b)) ∧
  (∀ (c : Config) (p : Nat), p ≤ 63 → pageBase c p = .ok (c.flashMapBase + 16 * p)) ∧
  (∀ c : Config, blockBase c = c.flashMapBase + 1008 ∧ pageBase c 63 = .ok (blockBase c)) ∧
  (∀ (c : Config) (k : Nat), k ≤ 15 → blockAddress c k = .ok (blockBase c + k)) ∧
  (∀ (c : Config) (p w b : Nat), 63 < p ∨ 7 < w ∨ 1 < b → absAddr c p w b = .error .translatorDomain) ∧
  (∀ (c : Config) (k : Nat), 15 < k → blockAddress c k = .error .translatorDomain) ∧
  (∀ (c : Config) (addr : Nat), ¬ c.InWindow addr → flashOffset c addr = .error .translatorDomain)

/-- R162: the low four bits of an address in the window are those of its offset; it is the high byte of a
word exactly when it is odd. -/
def Obligations.OddAddressIsHighByte : Prop :=
  ∀ (c : Config) (addr : Nat), c.Valid → c.InWindow addr → ∃ off, flashOffset c addr = .ok off ∧
    off.toNat % 16 = addr % 16 ∧ (waddr off).toNat = addr / 2 % 8 ∧ (bsel off).toNat = addr % 2 ∧
    (bsel off = true ↔ addr % 2 = 1)

/-! ### Reset and the invariant -/

/-- R40 at first power-on, for every instance of the parameters and every first contents (R42): the
sequencer's values, no mark, and the invariant of R35. `cmd`, `rdata` and `result` are not constrained. -/
def Obligations.PowerOnMeetsInvariant : Prop :=
  (∀ (c : Config) (init : Memory), c.Valid → init.wf = true → (State.powerOn c init).Inv) ∧
  (∀ (c : Config) (init : Memory), (State.powerOn c init).phase = .idle ∧ (State.powerOn c init).age = 0 ∧
    (State.powerOn c init).ew = 0 ∧ (State.powerOn c init).lat = none ∧ (State.powerOn c init).eff = .noEffect ∧
    (State.powerOn c init).tn = 0 ∧ (State.powerOn c init).busy = false ∧ (State.powerOn c init).Clean ∧
    (State.powerOn c init).flash = init) ∧
  State.reset.Inv

/-- R35, over every step from every state that meets it, driver operations included. -/
def Obligations.EveryStepKeepsInvariant : Prop :=
  ∀ s t : State, s.Inv → step s = .next t → t.Inv

/-- R41, R221: what RESET leaves, and what it does to an operation in progress. -/
def Obligations.ResetClearsSequencer : Prop :=
  ∀ s : State, ∃ t, exec .reset s = .next t ∧
    t.phase = .idle ∧ t.age = 0 ∧ t.ew = 0 ∧ t.tn = 0 ∧ t.lat = none ∧ t.eff = .noEffect ∧ t.busy = false ∧
    t.cmd = Config.freeCmd s.draws ∧ t.refused = s.refused ∧ t.cfg = s.cfg ∧ t.agenda = s.agenda ∧
    t.result = s.result ∧ t.rdata = s.rdata ∧
    (s.phase = .triggered ∨ s.phase = .busy →
      t.fault = some (s.fault.getD .interrupted) ∧
      ∀ off, off < flashBytes → t.flash.get off = Config.freeFlash s.draws off) ∧
    (s.phase = .idle ∨ s.phase = .cmdLoaded ∨ s.phase = .armed →
      t.fault = s.fault ∧ (s.fault = none → t.flash = s.flash))

/-- R196, with R41 and R190: a word read back after a RESET taken in Idle is the word before it. -/
def Obligations.FlashPersistsAcrossReset : Prop :=
  ∀ (s : State) (addr gap : Nat), s.cfg.Valid → s.fault = none → s.phase = .idle → s.cfg.InWindow addr →
    addr % 2 = 0 → ∃ t u, exec .reset s = .next t ∧ exec (.readWord addr gap) t = .next u ∧
      u.result = s.flashWord (BitVec.ofNat 9 ((addr - s.cfg.flashMapBase) / 2))

/-! ### NOP and the aging of the windows -/

/-- R181: in Idle and Busy a NOP changes nothing. -/
def Obligations.NopInIdleAndBusyChangesNothing : Prop :=
  ∀ s : State, s.fault = none → s.phase = .idle ∨ s.phase = .busy →
    exec .nop s = .next { s with rdata := Config.freeByte s.draws, draws := s.draws + 1 }

/-- R176: every cycle in CmdLoaded but the enable write ages the window, whatever its operation; at the
bound the command is disarmed, and CMD keeps its value. -/
def Obligations.CommandWindowAges : Prop :=
  ∀ (s : State) (i : Instr), i.isBus = true → s.phase = .cmdLoaded → i ≠ .wrProt s.cfg.enableCode →
    ∃ t, exec i s = .next t ∧ t.age = s.age + 1 ∧ t.cmd = s.cmd ∧
      t.phase = (if s.age + 1 = s.cfg.ceWindow then .idle else .cmdLoaded) ∧
      t.ew = s.ew ∧ t.lat = s.lat ∧ t.eff = s.eff ∧ t.tn = s.tn

/-- R176, consequence, with R226: `n` cycles of NOP after the command load the enable write is still accepted
exactly when `n` is less than CE_WINDOW. -/
def Obligations.EnableAcceptedWithinBound : Prop :=
  ∀ (s : State) (n : Nat) (rest : List Event), s.cfg.Valid → s.fault = none → s.phase = .cmdLoaded → s.age = 0 →
    ∃ t, Host.Core.run core n { s with agenda := List.replicate n (.word 0x000000#22) ++ rest } = .next t ∧
      t.agenda = rest ∧ t.flash = s.flash ∧ t.fault = none ∧ t.refused = s.refused ∧ t.cmd = s.cmd ∧
      (n < s.cfg.ceWindow → t.phase = .cmdLoaded ∧ ∃ u, exec (.wrProt s.cfg.enableCode) t = .next u ∧
        u.phase = .armed ∧ u.ew = 4) ∧
      (s.cfg.ceWindow ≤ n → t.phase = .idle ∧ ∃ u, exec (.wrProt s.cfg.enableCode) t = .next u ∧ u.phase = .idle)

/-- R177: every cycle in Armed that is no trigger ages the window; when it closes the latch is cleared and
the flash is unchanged. While it stays open the latch is kept, but for the first store of a word write. -/
def Obligations.TriggerWindowAges : Prop :=
  ∀ (s : State) (i : Instr), i.isBus = true → s.phase = .armed →
    ∃ t, exec i s = .next t ∧
      (t.phase ≠ .triggered → t.ew = s.ew - 1 ∧ t.cmd = s.cmd ∧ t.eff = s.eff ∧ t.tn = s.tn ∧ t.age = s.age ∧
        (s.ew - 1 = 0 → t.phase = .idle ∧ t.lat = none) ∧
        (s.ew - 1 ≠ 0 → t.phase = .armed ∧
          ((∀ off d, i = .stFlash off d → s.cmd ≠ s.cfg.wordWriteCode ∨ s.lat ≠ none ∨ bsel off = true) →
            t.lat = s.lat))) ∧
      (t.phase = .triggered → ∃ off d, i = .stFlash off d) ∧
      (t.fault = none → t.flash = s.flash)

/-- R177, consequence, with R227: `n` cycles of NOP after the enable write an erase trigger store is accepted
exactly when `n` is less than four, and is the fault of R152 after that. -/
def Obligations.TriggerAcceptedForFourCycles : Prop :=
  ∀ (s : State) (n : Nat) (rest : List Event) (off : Offset) (d : Byte), s.fault = none → s.phase = .armed →
    s.ew = 4 → s.cmd = s.cfg.pageEraseCode →
    ∃ t u, Host.Core.run core n { s with agenda := List.replicate n (.word 0x000000#22) ++ rest } = .next t ∧
      t.agenda = rest ∧ t.flash = s.flash ∧ t.fault = none ∧ exec (.stFlash off d) t = .next u ∧
      (n < 4 → u.phase = .triggered ∧ u.fault = none) ∧
      (4 ≤ n → t.phase = .idle ∧ u.fault = some .unarmedFlashStore)

/-- R178: a NOP in Triggered pays one of the owed cycles; with the last the flash operation runs. -/
def Obligations.NopPaysTriggeredCycles : Prop :=
  ∀ s : State, s.fault = none → s.phase = .triggered →
    exec .nop s = .next { s with
      tn := s.tn - 1
      phase := if s.tn - 1 = 0 then .busy else .triggered
      rdata := Config.freeByte s.draws
      draws := s.draws + 1 }

/-! ### The register operations -/

/-- R102: a legal code written in Idle loads the command. -/
def Obligations.WrCmdLoadsLegalCode : Prop :=
  ∀ (s : State) (d : Byte), s.fault = none → s.phase = .idle →
    d = s.cfg.pageEraseCode ∨ d = s.cfg.wordWriteCode →
    exec (.wrCmd d) s = .next { s with
      cmd := d
      age := 0
      lat := none
      phase := .cmdLoaded
      rdata := Config.freeByte s.draws
      draws := s.draws + 1 }

/-- R103: a reserved code is refused in every phase, with the fault of the phase beside it; nothing else
changes but the age of the window (R176, R177). -/
def Obligations.WrCmdRefusesReservedCode : Prop :=
  ∀ (s : State) (d : Byte), d ≠ s.cfg.pageEraseCode → d ≠ s.cfg.wordWriteCode →
    ∃ t, exec (.wrCmd d) s = .next t ∧ t.refused = some (s.refused.getD .reservedCommand) ∧
      (s.phase = .triggered → t.fault = some (s.fault.getD .hazardViolation)) ∧
      (s.phase = .busy → t.fault = some (s.fault.getD .busyViolation)) ∧
      (s.phase ≠ .triggered → s.phase ≠ .busy → t.fault = s.fault) ∧ OnlyAges s t

/-- R104: the enable code written in CmdLoaded arms the command and opens the window of four cycles. -/
def Obligations.WrProtArmsCommand : Prop :=
  ∀ s : State, s.fault = none → s.phase = .cmdLoaded →
    exec (.wrProt s.cfg.enableCode) s = .next { s with
      ew := 4
      lat := none
      phase := .armed
      rdata := Config.freeByte s.draws
      draws := s.draws + 1 }

/-- R105: in Idle a write of PROT has no effect on the block, whatever its data. -/
def Obligations.WrProtInIdleHasNoEffect : Prop :=
  ∀ (s : State) (d : Byte), s.fault = none → s.phase = .idle →
    exec (.wrProt d) s = .next { s with rdata := Config.freeByte s.draws, draws := s.draws + 1 }

/-- R106: the status byte shows BUSY in bit BUSY_BIT and drawn bits elsewhere; no state is written. -/
def Obligations.RdStatusShowsBusy : Prop :=
  ∀ s : State, s.fault = none → s.phase = .idle ∨ s.phase = .busy →
    ∃ b : Byte, exec .rdStatus s = .next { s with rdata := b, draws := s.draws + 1 } ∧
      ∀ j : Fin 8, b.getLsbD j =
        if j = s.cfg.busyBit then decide (s.phase = .busy) else (Config.freeByte s.draws).getLsbD j

/-- R108, R109: the operations that are refused in every phase. Each has its reason, is a hazard as well in
Triggered, and changes no other state but the age of the window (R176, R177). -/
def Obligations.RefusedOperationsMarkOnly : Prop :=
  ∀ (s : State) (i : Instr) (r : Refusal),
    (i = .rdCmd ∨ i = .rdProt) ∧ r = .unreadableRegister ∨
    (∃ d, i = .wrStatus d) ∧ r = .unwritableRegister ∨
    ((∃ mid, i = .rsvdSelOdd mid) ∨ i = .rsvdSelSix) ∧ r = .reservedSelect →
    ∃ t, exec i s = .next t ∧ t.refused = some (s.refused.getD r) ∧
      (s.phase = .triggered → t.fault = some (s.fault.getD .hazardViolation)) ∧
      (s.phase ≠ .triggered → t.fault = s.fault) ∧ OnlyAges s t

/-- R111: what is interleaved with a pending command is refused. Where no rule gives the operation a
reason of its own (R103, R108, R109) the reason is Interleaved. No other state changes but the age of the
window (R176, R177). -/
def Obligations.InterleavedOperationsRefused : Prop :=
  ∀ (s : State) (i : Instr), i.isBus = true → i ≠ .nop → (∀ off d, i ≠ .stFlash off d) →
    (s.phase = .cmdLoaded ∧ i ≠ .wrProt s.cfg.enableCode) ∨ s.phase = .armed →
    ∃ t, exec i s = .next t ∧ t.refused.isSome = true ∧ t.fault = s.fault ∧ OnlyAges s t ∧
      ((∃ d, i = .wrCmd d ∧ (d = s.cfg.pageEraseCode ∨ d = s.cfg.wordWriteCode)) ∨ (∃ d, i = .wrProt d) ∨
        i = .rdStatus ∨ (∃ off, i = .ldFlash off) → t.refused = some (s.refused.getD .interleaved))

/-- R112: in Triggered every operation other than NOP is a hazard violation. -/
def Obligations.TriggeredAdmitsOnlyNop : Prop :=
  ∀ (s : State) (i : Instr), i.isBus = true → i ≠ .nop → s.phase = .triggered →
    ∃ t, exec i s = .next t ∧ t.fault = some (s.fault.getD .hazardViolation) ∧ t.phase = .triggered ∧
      t.tn = s.tn ∧ t.eff = s.eff ∧ t.cmd = s.cmd

/-- R113: in Busy the three writes are violations, and NOP, RD_STATUS and LD_FLASH are the only operations
that set no mark. -/
def Obligations.BusyAdmitsNoWrite : Prop :=
  (∀ (s : State) (i : Instr), s.phase = .busy →
    (∃ d, i = .wrCmd d) ∨ (∃ d, i = .wrProt d) ∨ (∃ off d, i = .stFlash off d) →
    ∃ t, exec i s = .next t ∧ t.fault = some (s.fault.getD .busyViolation) ∧ t.phase = .busy ∧ t.eff = s.eff ∧
      t.cmd = s.cmd) ∧
  (∀ (s : State) (i : Instr), s.phase = .busy → s.Clean → i.isBus = true →
    ∃ t, exec i s = .next t ∧ (t.Clean ↔ i = .nop ∨ i = .rdStatus ∨ ∃ off, i = .ldFlash off))

/-! ### The code rows -/

/-- R87: the `data` of a WR_CMD means what the code row it selects means; in Idle the two codes load
their command and every other value is refused. -/
def Obligations.CommandCodesAreWrCmdData : Prop :=
  (∀ (s : State) (d : Byte), exec (decodeCmdCode s.cfg d) s = exec (.wrCmd d) s) ∧
  (∀ s : State, s.fault = none → s.phase = .idle →
    exec .pageErase s = .next { s with
      cmd := s.cfg.pageEraseCode
      age := 0
      lat := none
      phase := .cmdLoaded
      rdata := Config.freeByte s.draws
      draws := s.draws + 1 } ∧
    exec .wordWrite s = .next { s with
      cmd := s.cfg.wordWriteCode
      age := 0
      lat := none
      phase := .cmdLoaded
      rdata := Config.freeByte s.draws
      draws := s.draws + 1 } ∧
    ∀ code, (Instr.cmdReserved code).wellFormed s.cfg = true →
      exec (.cmdReserved code) s = .next { s with
        refused := some (s.refused.getD .reservedCommand)
        rdata := Config.freeByte s.draws
        draws := s.draws + 1 })

/-- R88, R104: the enable code written to PROT arms a command loaded before. -/
def Obligations.EnableCodeArms : Prop :=
  (∀ (s : State) (d : Byte) (i : Instr), decodeProtCode s.cfg d = some i → exec i s = exec (.wrProt d) s) ∧
  (∀ s : State, s.fault = none → s.phase = .cmdLoaded →
    exec .enable s = .next { s with
      ew := 4
      lat := none
      phase := .armed
      rdata := Config.freeByte s.draws
      draws := s.draws + 1 })

/-- R89 and R106, with the model's choice of what the row BUSY does (log 12): software reads the status byte
and keeps its one defined field. -/
def Obligations.BusyFieldRead : Prop :=
  ∀ s : State, s.fault = none → s.phase = .idle ∨ s.phase = .busy →
    ∃ b : Byte, exec .busy s = .next { s with
        rdata := b
        result := if s.phase = .busy then 1#16 else 0#16
        draws := s.draws + 1 } ∧
      decodeStatusByte s.cfg b = decide (s.phase = .busy)

/-! ### Loads and stores in the flash window -/

/-- R150: a load in Idle returns the byte at its offset, low byte at even and high byte at odd offsets. -/
def Obligations.LdFlashReturnsByte : Prop :=
  ∀ (s : State) (off : Offset), s.fault = none → s.phase = .idle →
    exec (.ldFlash off) s = .next { s with
      rdata := if off.getLsbD 0 then (s.flashWord (off.extractLsb' 1 9)).extractLsb' 8 8
               else (s.flashWord (off.extractLsb' 1 9)).extractLsb' 0 8
      draws := s.draws + 1 }

/-- R151: a load in Busy returns a drawn byte, whatever its offset and the pending effect. -/
def Obligations.LdFlashInBusyIsDrawn : Prop :=
  ∀ (s : State) (off : Offset), s.fault = none → s.phase = .busy →
    exec (.ldFlash off) s = .next { s with rdata := Config.freeByte s.draws, draws := s.draws + 1 }

/-- R152: a store with no command armed. The flash is unspecified from then on; the sequencer is as it was
but for the window's aging (R176). -/
def Obligations.UnarmedStoreFaults : Prop :=
  ∀ (s : State) (off : Offset) (d : Byte), s.phase = .idle ∨ s.phase = .cmdLoaded →
    ∃ t, exec (.stFlash off d) s = .next t ∧ t.fault = some (s.fault.getD .unarmedFlashStore) ∧
      t.refused = s.refused ∧ t.cmd = s.cmd ∧ t.eff = s.eff ∧ t.lat = s.lat ∧
      ∀ a, a < flashBytes → t.flash.get a = Config.freeFlash s.draws a

/-- R121, R124: the erase trigger store. An odd offset selects its page (R122), an even one nothing (R123);
the data has no influence. -/
def Obligations.EraseTriggerStore : Prop :=
  ∀ (s : State) (off : Offset) (d : Byte), s.fault = none → s.phase = .armed → s.cmd = s.cfg.pageEraseCode →
    exec (.stFlash off d) s = .next { s with
      eff := if off.getLsbD 0 then .erasePage (off.extractLsb' 4 6) else .noEffect
      tn := 2
      ew := 0
      lat := none
      phase := .triggered
      rdata := Config.freeByte s.draws
      draws := s.draws + 1 }

/-- R137: the first store of a word write is latched, and its cycle counts against the window. -/
def Obligations.FirstStoreLatchesLowByte : Prop :=
  ∀ (s : State) (off : Offset) (d : Byte), s.cfg.Valid → s.fault = none → s.phase = .armed →
    s.cmd = s.cfg.wordWriteCode → s.lat = none → off.getLsbD 0 = false →
    exec (.stFlash off d) s = .next { s with
      lat := if s.ew - 1 = 0 then none else some { off := off, byte := d }
      ew := s.ew - 1
      phase := if s.ew - 1 = 0 then .idle else .armed
      rdata := Config.freeByte s.draws
      draws := s.draws + 1 }

/-- R138: the store at the latched offset plus one commits the word, high byte from this store. -/
def Obligations.SecondStoreCommits : Prop :=
  ∀ (s : State) (l : Latch) (off : Offset) (d : Byte), s.cfg.Valid → s.fault = none → s.phase = .armed →
    s.cmd = s.cfg.wordWriteCode → s.lat = some l → off.toNat = l.off.toNat + 1 →
    exec (.stFlash off d) s = .next { s with
      eff := .writeWord (l.off.extractLsb' 1 9) (d ++ l.byte)
      tn := 2
      ew := 0
      lat := none
      phase := .triggered
      rdata := Config.freeByte s.draws
      draws := s.draws + 1 }

/-- R139: every other store of a word write is malformed. -/
def Obligations.OtherStoresAreMalformed : Prop :=
  ∀ (s : State) (off : Offset) (d : Byte), s.cfg.Valid → s.phase = .armed → s.cmd = s.cfg.wordWriteCode →
    (s.lat = none ∧ off.getLsbD 0 = true) ∨ (∃ l, s.lat = some l ∧ off.toNat ≠ l.off.toNat + 1) →
    ∃ t, exec (.stFlash off d) s = .next t ∧ t.fault = some (s.fault.getD .malformedWrite) ∧
      t.refused = s.refused ∧ t.cmd = s.cmd ∧ t.eff = s.eff ∧
      ∀ a, a < flashBytes → t.flash.get a = Config.freeFlash s.draws a

/-! ### COMPLETE and the flash array -/

/-- R125: COMPLETE of an erase sets the eight words of the page and no other. -/
def Obligations.CompleteErasesPage : Prop :=
  ∀ (s : State) (p : PageNo), s.flash.wf = true → s.fault = none → s.phase = .busy → s.eff = .erasePage p →
    ∃ m : Memory, exec .complete s = .next { s with flash := m, eff := .noEffect, phase := .idle } ∧
      ∀ w : WordIndex, m.word w.toNat = if pageOf w = p then 0xFFFF#16 else s.flashWord w

/-- R141: COMPLETE of a word write ANDs the word and changes no other. -/
def Obligations.CompleteAndsWord : Prop :=
  ∀ (s : State) (w : WordIndex) (v : FlashWord), s.flash.wf = true → s.fault = none → s.phase = .busy →
    s.eff = .writeWord w v →
    ∃ m : Memory, exec .complete s = .next { s with flash := m, eff := .noEffect, phase := .idle } ∧
      ∀ x : WordIndex, m.word x.toNat = if x = w then s.flashWord x &&& v else s.flashWord x

/-- R179, with the model's choice that a COMPLETE presented where it is not enabled is refused (log 13). -/
def Obligations.CompleteOnlyWhenEnabled : Prop :=
  (∀ s : State, s.phase = .busy → s.fault = none → s.eff = .noEffect →
    exec .complete s = .next { s with eff := .noEffect, phase := .idle }) ∧
  (∀ s : State, s.phase ≠ .busy ∨ s.fault ≠ none → exec .complete s = .refused .notEnabled)

/-- R24, R22, over every single step (a bus operation, a code row, COMPLETE, RESET): without a fault the flash
changes by COMPLETE alone, a bit rises only in an erased page and falls only in a written word. -/
def Obligations.FlashBitLaw : Prop :=
  ∀ (s t : State) (i : Instr), s.flash.wf = true → exec i s = .next t → t.fault = none →
    (i.isBus = true ∨ i = .pageErase ∨ i = .wordWrite ∨ (∃ c, i = .cmdReserved c) ∨ i = .enable ∨ i = .busy ∨
      i = .reset → t.flash = s.flash) ∧
    (i = .complete → ∀ (w : WordIndex) (k : Nat), k < 16 →
      ((s.flashWord w).getLsbD k = false → (t.flashWord w).getLsbD k = true → s.eff = .erasePage (pageOf w)) ∧
      ((s.flashWord w).getLsbD k = true → (t.flashWord w).getLsbD k = false →
        ∃ v : FlashWord, s.eff = .writeWord w v ∧ v.getLsbD k = false))

/-! ### Marks and frames over all instructions -/

/-- R43, R44, R110: a mark once set keeps its first reason, under every instruction, RESET and the driver
operations included. -/
def Obligations.MarksKeepFirstReason : Prop :=
  ∀ (s t : State) (i : Instr), exec i s = .next t →
    (∀ r, s.fault = some r → t.fault = some r) ∧ (∀ r, s.refused = some r → t.refused = some r)

/-- R43, R203: after a cycle or a RESET that ends with a fault all of the flash is unspecified, and so is the
cycle's output. -/
def Obligations.FaultUnspecifiesFlash : Prop :=
  ∀ (s t : State) (i : Instr), i.isBus = true ∨ i = .reset → exec i s = .next t → t.fault ≠ none →
    (∀ a, a < flashBytes → t.flash.get a = Config.freeFlash s.draws a) ∧
    (i.isBus = true → t.rdata = Config.freeByte s.draws)

/-- R182: the phase changes along the edges of the phase graph and in no other way. -/
def Obligations.PhaseGraphHasNoOtherEdge : Prop :=
  ∀ (s t : State) (i : Instr), i.isBus = true ∨ i = .complete ∨ i = .reset → exec i s = .next t →
    t.phase = s.phase ∨ PhaseEdge s.cfg s.phase i t.phase

/-- The frame of every bus operation (R22, R25, R32, R33): CMD changes by a legal command load alone, the
pending effect by a store in Armed alone, the latch is cleared, in a state that meets the invariant only where
the phase leaves Armed, or set by the first store of a word write, and without a fault no byte of the flash
changes. -/
def Obligations.BusOperationsFrame : Prop :=
  ∀ (s t : State) (i : Instr), i.isBus = true → exec i s = .next t →
    (t.cmd ≠ s.cmd → s.phase = .idle ∧ i = .wrCmd t.cmd ∧ (t.cmd = s.cfg.pageEraseCode ∨ t.cmd = s.cfg.wordWriteCode)) ∧
    (t.eff ≠ s.eff → s.phase = .armed ∧ ∃ off d, i = .stFlash off d) ∧
    (t.lat ≠ s.lat → t.lat = none ∨ s.phase = .armed ∧ s.cmd = s.cfg.wordWriteCode ∧ s.lat = none ∧
      ∃ off d, i = .stFlash off d ∧ bsel off = false ∧ t.lat = some { off := off, byte := d }) ∧
    (s.Inv → t.lat ≠ s.lat → t.lat = none → s.phase = .armed ∧ t.phase ≠ .armed) ∧
    t.result = s.result ∧ (t.fault = none → ∀ a, t.flash.get a = s.flash.get a)

/-- No instruction changes the parameters (R9) or what the agents do next (the model's agenda, log 2). -/
def Obligations.ParametersNeverChange : Prop :=
  ∀ (s t : State) (i : Instr), exec i s = .next t → t.cfg = s.cfg ∧ t.agenda = s.agenda

/-! ### The driver operations -/

/-- R185: from Idle or Busy the busy-wait ends, for every number of polls and every gap, in Idle, with the
pending flash change applied and no mark set. -/
def Obligations.WaitNotBusyEnds : Prop :=
  ∀ (s : State) (polls : List Nat) (last : Nat), s.fault = none → s.phase = .idle ∨ s.phase = .busy →
    (s.phase = .idle → s.eff = .noEffect) →
    ∃ t, exec (.waitNotBusy polls last) s = .next t ∧ t.phase = .idle ∧ t.eff = .noEffect ∧
      t.flash = s.flash.apply s.eff ∧ t.fault = none ∧ t.refused = s.refused ∧ t.cmd = s.cmd ∧ t.age = s.age ∧
      t.ew = s.ew ∧ t.lat = s.lat ∧ t.tn = s.tn ∧ t.result = s.result

/-- R187: `erase_page A` for every gap within its bound and every run of the poll. -/
def Obligations.ErasePageResult : Prop :=
  ∀ (s : State) (addr : Nat) (d : Byte) (g1 g2 more : Nat) (polls : List Nat) (last : Nat) (off : Offset),
    s.cfg.Valid → s.flash.wf = true → s.fault = none → s.phase = .idle →
    flashOffset s.cfg addr = .ok off → g1 + 1 ≤ s.cfg.ceWindow → g2 + 1 ≤ 4 →
    ∃ t, exec (.erasePage addr d g1 g2 more polls last) s = .next t ∧ t.phase = .idle ∧ t.fault = none ∧
      t.refused = s.refused ∧ t.result = s.result ∧ t.cmd = s.cfg.pageEraseCode ∧ t.lat = none ∧ t.eff = .noEffect ∧
      t.flash.wf = true ∧
      (bsel off = true → ∀ w, t.flashWord w = if pageOf w = paddr off then 0xFFFF#16 else s.flashWord w) ∧
      (bsel off = false → t.flash = s.flash)

/-- R189: `write_word A, W` for every gap within its bound and every run of the poll; an odd address is
malformed at its first store. -/
def Obligations.WriteWordResult : Prop :=
  ∀ (s : State) (addr : Nat) (v : FlashWord) (g1 g2 g3 : Nat) (polls : List Nat) (last : Nat) (off : Offset),
    s.cfg.Valid → s.flash.wf = true → s.fault = none → s.phase = .idle →
    flashOffset s.cfg addr = .ok off → g1 + 1 ≤ s.cfg.ceWindow → g2 + g3 + 2 ≤ 4 →
    ∃ t, exec (.writeWord addr v g1 g2 g3 polls last) s = .next t ∧ t.result = s.result ∧
      (addr % 2 = 0 → t.phase = .idle ∧ t.fault = none ∧ t.refused = s.refused ∧ t.cmd = s.cfg.wordWriteCode ∧
        t.lat = none ∧ t.eff = .noEffect ∧ t.flash.wf = true ∧
        ∀ w, t.flashWord w = if w = wordIndex off then s.flashWord w &&& v else s.flashWord w) ∧
      (addr % 2 = 1 → t.fault = some .malformedWrite)

/-- R190: `read_word A` returns the word and changes nothing else. -/
def Obligations.ReadWordReturnsWord : Prop :=
  ∀ (s : State) (addr gap : Nat) (off : Offset), s.cfg.Valid → s.fault = none → s.phase = .idle →
    flashOffset s.cfg addr = .ok off → addr % 2 = 0 →
    exec (.readWord addr gap) s = .next { s with
      rdata := (s.flashWord (wordIndex off)).extractLsb' 8 8
      result := s.flashWord (wordIndex off)
      draws := s.draws + gap + 2 }

/-- R191, R84: `read_byte A` is the one operation the address decoder chooses; in Idle, in the window, it
returns the byte. -/
def Obligations.ReadByteRunsChosenOperation : Prop :=
  ∀ (s : State) (addr : Nat), s.cfg.Valid → addr < 2 ^ s.cfg.addrWidth →
    (∀ off, flashOffset s.cfg addr = .ok off → exec (.readByte addr) s = exec (.ldFlash off) s ∧
      (s.fault = none → s.phase = .idle → exec (.readByte addr) s =
        .next { s with rdata := s.flashByte off, draws := s.draws + 1 })) ∧
    (addr = s.cfg.statusAddr → exec (.readByte addr) s = exec .rdStatus s) ∧
    (addr = s.cfg.cmdAddr → exec (.readByte addr) s = exec .rdCmd s) ∧
    (addr = s.cfg.protAddr → exec (.readByte addr) s = exec .rdProt s) ∧
    (¬ s.cfg.InWindow addr → addr ≠ s.cfg.statusAddr → addr ≠ s.cfg.cmdAddr → addr ≠ s.cfg.protAddr →
      exec (.readByte addr) s = exec .nop s)

/-- R192, R84: `write_byte A, v` is the one operation the address decoder chooses; in Idle a legal code
written to CMD_ADDR loads the command. -/
def Obligations.WriteByteRunsChosenOperation : Prop :=
  ∀ (s : State) (addr : Nat) (v : Byte), s.cfg.Valid → addr < 2 ^ s.cfg.addrWidth →
    (∀ off, flashOffset s.cfg addr = .ok off → exec (.writeByte addr v) s = exec (.stFlash off v) s ∧
      (s.fault = none → s.phase = .idle →
        ∃ t, exec (.writeByte addr v) s = .next t ∧ t.fault = some .unarmedFlashStore)) ∧
    (addr = s.cfg.cmdAddr → exec (.writeByte addr v) s = exec (.wrCmd v) s ∧
      (s.fault = none → s.phase = .idle → v = s.cfg.pageEraseCode ∨ v = s.cfg.wordWriteCode →
        exec (.writeByte addr v) s = .next { s with
          cmd := v
          age := 0
          lat := none
          phase := .cmdLoaded
          rdata := Config.freeByte s.draws
          draws := s.draws + 1 })) ∧
    (addr = s.cfg.protAddr → exec (.writeByte addr v) s = exec (.wrProt v) s) ∧
    (addr = s.cfg.statusAddr → exec (.writeByte addr v) s = exec (.wrStatus v) s) ∧
    (¬ s.cfg.InWindow addr → addr ≠ s.cfg.statusAddr → addr ≠ s.cfg.cmdAddr → addr ≠ s.cfg.protAddr →
      exec (.writeByte addr v) s = exec .nop s)

/-- R167, with the model's choice of how a driver operation meets it (log 16): an address outside the
translator's domain is refused and no cycle is spent. -/
def Obligations.DriverRefusesOutsideDomain : Prop :=
  ∀ (s : State) (addr : Nat),
    (¬ s.cfg.InWindow addr → ∀ d v g1 g2 g3 polls last,
      exec (.erasePage addr d g1 g2 g3 polls last) s = .next { s with refused := some (s.refused.getD .translatorDomain) } ∧
      exec (.writeWord addr v g1 g2 g3 polls last) s = .next { s with refused := some (s.refused.getD .translatorDomain) } ∧
      exec (.readWord addr g1) s = .next { s with refused := some (s.refused.getD .translatorDomain) }) ∧
    (2 ^ s.cfg.addrWidth ≤ addr → ∀ v,
      exec (.readByte addr) s = .next { s with refused := some (s.refused.getD .translatorDomain) } ∧
      exec (.writeByte addr v) s = .next { s with refused := some (s.refused.getD .translatorDomain) })

/-- Claim Q4 of spec/95 (S1 as corrected by C2): erase at A + 1, write V at A, read A returns V. -/
def Obligations.EraseWriteReadRoundTrip : Prop :=
  ∀ (s : State) (addr : Nat) (v : FlashWord) (d : Byte) (g1 g2 more h1 h2 h3 gap : Nat) (p1 p2 : List Nat)
    (l1 l2 : Nat), s.cfg.Valid → s.flash.wf = true → s.fault = none → s.phase = .idle → s.cfg.InWindow addr →
    addr % 2 = 0 → g1 + 1 ≤ s.cfg.ceWindow → g2 + 1 ≤ 4 → h1 + 1 ≤ s.cfg.ceWindow → h2 + h3 + 2 ≤ 4 →
    ∃ t u x, exec (.erasePage (addr + 1) d g1 g2 more p1 l1) s = .next t ∧
      exec (.writeWord addr v h1 h2 h3 p2 l2) t = .next u ∧ exec (.readWord addr gap) u = .next x ∧
      x.result = v ∧ x.phase = .idle ∧ x.fault = none ∧ x.refused = s.refused

/-- R142 (b) and (d) in the general form of C6: two writes without an erase between leave the AND of both
with the old word. -/
def Obligations.TwoWritesAccumulateAnd : Prop :=
  ∀ (s : State) (addr : Nat) (v1 v2 : FlashWord) (p1 p2 : List Nat) (off : Offset), s.cfg.Valid →
    s.flash.wf = true → s.fault = none → s.phase = .idle → flashOffset s.cfg addr = .ok off → addr % 2 = 0 →
    ∃ t u, exec (.writeWord addr v1 0 0 0 p1 0) s = .next t ∧ exec (.writeWord addr v2 0 0 0 p2 0) t = .next u ∧
      u.fault = none ∧ u.phase = .idle ∧
      ∀ w, u.flashWord w = if w = wordIndex off then s.flashWord w &&& v1 &&& v2 else s.flashWord w

/-! ### The step -/

/-- R13, R64, R175: the step with a transaction word next on the agenda is the cycle of the operation the word
decodes to, in the same state with the word taken off (the model's agenda, log 2). -/
def Obligations.StepRunsPresentedWord : Prop :=
  (∀ (s : State) (T : Transaction) (rest : List Event), s.agenda = .word T :: rest →
    step s = exec (decode T) { s with agenda := rest }) ∧
  (∀ (s : State) (i : Instr) (w : Nat), w < 2 ^ 24 → decodeTableWord 24 w = some i →
    step (s.withFetchWord 24 w) = exec i s)

/-- R175 and R180, with the model's schedule (log 2, 3): an event that has no word of its own happens as it
stands, and when the agenda is used up a pending COMPLETE is taken, else the host presents NOP. -/
def Obligations.StepRunsOtherEvents : Prop :=
  (∀ (s : State) (i : Instr) (rest : List Event), s.agenda = .act i :: rest →
    step s = exec i { s with agenda := rest }) ∧
  (∀ s : State, s.agenda = [] → s.phase = .busy → s.fault = none → step s = exec .complete s) ∧
  (∀ s : State, s.agenda = [] → s.phase ≠ .busy ∨ s.fault ≠ none → step s = exec .nop s)

/-- "The model is never stuck" (spec/93 section 1): every transaction word has a next state, and the one
step that has none is a COMPLETE presented where it is not enabled (log 13). -/
def Obligations.MachineIsNeverStuck : Prop :=
  (∀ (s : State) (T : Transaction), ∃ t, exec (decode T) s = .next t) ∧
  (∀ s : State, (∃ t, step s = .next t) ∨
    step s = .refused .notEnabled ∧ (s.phase ≠ .busy ∨ s.fault ≠ none) ∧ ∃ rest, s.agenda = .act .complete :: rest)

/-- R180, in the model's schedule (log 3): with any finite number of polls and NOP cycles still to come,
COMPLETE is taken, and its effect is applied. -/
def Obligations.BusyEndsAfterHostWords : Prop :=
  ∀ (s : State) (words : List Transaction), s.fault = none → s.phase = .busy → s.agenda = words.map .word →
    (∀ T ∈ words, decode T = .nop ∨ decode T = .rdStatus) →
    ∃ t, Host.Core.run core (words.length + 1) s = .next t ∧ t.phase = .idle ∧ t.eff = .noEffect ∧
      t.flash = s.flash.apply s.eff ∧ t.fault = none ∧ t.refused = s.refused

/-- R93, R198: running the words of a sequence of bus operations step by step reaches the state that a driver
operation's expansion reaches in one. -/
def Obligations.SequenceIsRunOfItsWords : Prop :=
  ∀ (s : State) (ops : List Instr) (rest : List Event), (∀ i ∈ ops, i.isBus = true) →
    Host.Core.run core ops.length { s with agenda := (ops.filterMap encodeOp).map .word ++ rest } =
      .next { runOps ops s with agenda := rest }
end

