-- ==== Sys2Proof/Laws/Bits.lean ====
section
/-! SUPPORT. The fields of a packed transaction word, the bits of the status byte, and the arithmetic of the offset fields. -/

namespace Sys2Proof

/-! ### The fields of a transaction word -/

/-- The bits of a packed word (R80). -/
theorem getLsbD_pack (rw : Bool) (sel : BitVec 3) (off : Offset) (data : Byte) (i : Nat) :
    (pack rw sel off data).getLsbD i =
      if i < 8 then data.getLsbD i
      else if i < 18 then off.getLsbD (i - 8)
      else if i < 21 then sel.getLsbD (i - 18)
      else decide (i = 21) && rw := by
  change BitVec.getLsbD (w := 1 + 3 + 10 + 8) (BitVec.ofBool rw ++ sel ++ off ++ data) i = _
  simp only [BitVec.getLsbD_append, BitVec.getLsbD_ofBool]
  rcases Nat.lt_or_ge i 8 with h | h
  · simp [h]
  rcases Nat.lt_or_ge i 18 with h2 | h2
  · simp [Nat.not_lt.mpr h, h2, show i - 8 < 10 by omega]
  rcases Nat.lt_or_ge i 21 with h3 | h3
  · simp [Nat.not_lt.mpr h, Nat.not_lt.mpr h2, h3, show ¬ i - 8 < 10 by omega,
      show i - 8 - 10 = i - 18 by omega, show i - 18 < 3 by omega]
  · simp [Nat.not_lt.mpr h, Nat.not_lt.mpr h2, Nat.not_lt.mpr h3, show ¬ i - 8 < 10 by omega,
      show ¬ i - 8 - 10 < 3 by omega, show (i - 8 - 10 - 3 = 0) = (i = 21) by
        rw [eq_iff_iff]; omega]

@[simp] theorem rwOf_pack (rw : Bool) (sel : BitVec 3) (off : Offset) (data : Byte) :
    rwOf (pack rw sel off data) = rw := by
  rw [rwOf, getLsbD_pack]; simp

@[simp] theorem selOf_pack (rw : Bool) (sel : BitVec 3) (off : Offset) (data : Byte) :
    selOf (pack rw sel off data) = sel := by
  apply BitVec.eq_of_getLsbD_eq
  intro i hi
  simp [selOf, getLsbD_pack, hi, show 18 + i < 21 by omega, show ¬ 18 + i < 8 by omega]

@[simp] theorem offOf_pack (rw : Bool) (sel : BitVec 3) (off : Offset) (data : Byte) :
    offOf (pack rw sel off data) = off := by
  apply BitVec.eq_of_getLsbD_eq
  intro i hi
  simp [offOf, getLsbD_pack, hi, show 8 + i < 18 by omega]

@[simp] theorem dataOf_pack (rw : Bool) (sel : BitVec 3) (off : Offset) (data : Byte) :
    dataOf (pack rw sel off data) = data := by
  apply BitVec.eq_of_getLsbD_eq
  intro i hi
  simp [dataOf, getLsbD_pack, hi]

/-- A transaction word is its four fields. -/
theorem pack_fields (T : Transaction) : pack (rwOf T) (selOf T) (offOf T) (dataOf T) = T := by
  apply BitVec.eq_of_getLsbD_eq
  intro i hi
  rw [getLsbD_pack]
  split
  · rename_i h; simp [dataOf, h]
  split
  · simp [offOf, show i - 8 < 10 by omega, show 8 + (i - 8) = i by omega]
  split
  · simp [selOf, show i - 18 < 3 by omega, show 18 + (i - 18) = i by omega]
  · obtain rfl : i = 21 := by omega
    simp [rwOf]

/-- Every select value is one of the eight. -/
theorem sel_cases (v : BitVec 3) : v = 0 ∨ v = 1 ∨ v = 2 ∨ v = 3 ∨ v = 4 ∨ v = 5 ∨ v = 6 ∨ v = 7 := by
  decide +revert

end Sys2Proof

namespace Sys2Proof.Machine

/-! ### The status byte -/

/-- Bit BUSY_BIT of the status byte is the flag, the others are drawn (R106). -/
theorem statusByte_bit (bit : Fin 8) (flag : Bool) (drawn : Byte) (i : Fin 8) :
    (statusByte bit flag drawn).getLsbD i = if i = bit then flag else drawn.getLsbD i := by
  cases flag <;> fin_cases bit <;> fin_cases i <;> simp [statusByte]

theorem statusByte_busy (bit : Fin 8) (flag : Bool) (drawn : Byte) :
    (statusByte bit flag drawn).getLsbD bit = flag := by
  simpa using statusByte_bit bit flag drawn bit

/-- The same, in the form simp gives a bit of known place. -/
@[simp] theorem statusByte_getElem (bit : Fin 8) (flag : Bool) (drawn : Byte) :
    (statusByte bit flag drawn)[bit.val] = flag := by
  rw [← BitVec.getLsbD_eq_getElem]; exact statusByte_busy bit flag drawn

/-! ### The offset fields -/

theorem bsel_eq (off : Offset) : bsel off = decide (off.toNat % 2 = 1) := by
  simp [bsel, BitVec.getLsbD, Nat.testBit_zero]

theorem paddr_toNat (off : Offset) : (paddr off).toNat = off.toNat / 16 := by
  have := off.isLt
  simp [paddr, BitVec.extractLsb'_toNat, Nat.shiftRight_eq_div_pow]; omega

theorem waddr_toNat (off : Offset) : (waddr off).toNat = off.toNat / 2 % 8 := by
  simp [waddr, BitVec.extractLsb'_toNat, Nat.shiftRight_eq_div_pow]

theorem wordIndex_toNat (off : Offset) : (wordIndex off).toNat = off.toNat / 2 := by
  have := off.isLt
  simp [wordIndex, BitVec.extractLsb'_toNat, Nat.shiftRight_eq_div_pow]; omega

end Sys2Proof.Machine
end

