-- ==== Sys2Proof/Laws/Flash.lean ====
section
/-! SUPPORT. The flash array: read after write, the canonical form kept by every operation, the words after an erase and after a write (R22, R50, R125, R141), and the unspecified flash (R43). -/

namespace Sys2Proof.Machine

/-! ### The canonical form -/

theorem Memory.wfFrom_mono {m : Memory} {lo lo' : Nat} (h : m.wfFrom lo = true) (hle : lo' ≤ lo) :
    m.wfFrom lo' = true := by
  cases m with
  | nil => rfl
  | cons e rest =>
    simp only [Memory.wfFrom, Bool.and_eq_true, decide_eq_true_eq] at h ⊢
    exact ⟨⟨⟨by omega, h.1.1.2⟩, h.1.2⟩, h.2⟩

theorem Memory.wf_nil : Memory.wf [] = true := rfl

/-- An offset below the first possible entry is not listed. -/
theorem Memory.get_of_lt {m : Memory} {lo off : Nat} (h : m.wfFrom lo = true) (hlt : off < lo) :
    m.get off = unlistedByte := by
  induction m generalizing lo with
  | nil => rfl
  | cons e rest ih =>
    simp only [Memory.wfFrom, Bool.and_eq_true, decide_eq_true_eq] at h
    rw [Memory.get, if_neg (by omega)]
    exact ih h.2 (by omega)

theorem Memory.wfFrom_set {m : Memory} {lo off : Nat} (v : Byte) (h : m.wfFrom lo = true) (hlo : lo ≤ off)
    (hoff : off < flashBytes) : (m.set off v).wfFrom lo = true := by
  induction m generalizing lo with
  | nil =>
    by_cases hv : v = unlistedByte
    · simp [Memory.set, hv, Memory.wfFrom]
    · simp [Memory.set, hv, Memory.wfFrom, hlo, hoff]
  | cons e rest ih =>
    obtain ⟨k, b⟩ := e
    have h0 := h
    simp only [Memory.wfFrom, Bool.and_eq_true, decide_eq_true_eq] at h
    rw [Memory.set]
    split
    · split
      · exact h0
      · rename_i hk hv
        simp only [Memory.wfFrom, Bool.and_eq_true, decide_eq_true_eq, bne_iff_ne]
        exact ⟨⟨⟨hlo, hoff⟩, hv⟩, ⟨⟨by omega, h.1.1.2⟩, by simpa using h.1.2⟩, h.2⟩
    split
    · split
      · exact Memory.wfFrom_mono h.2 (by omega)
      · rename_i hk hk2 hv
        simp only [Memory.wfFrom, Bool.and_eq_true, decide_eq_true_eq, bne_iff_ne]
        exact ⟨⟨h.1.1, hv⟩, h.2⟩
    · simp only [Memory.wfFrom, Bool.and_eq_true, decide_eq_true_eq]
      exact ⟨h.1, ih h.2 (by omega)⟩

theorem Memory.wf_set {m : Memory} {off : Nat} (v : Byte) (h : m.wf = true) (hoff : off < flashBytes) :
    (m.set off v).wf = true :=
  Memory.wfFrom_set v h (Nat.zero_le _) hoff

/-- Read after write, at the same and at every other offset. -/
theorem Memory.get_set_from {m : Memory} {lo : Nat} (off : Nat) (v : Byte) (a : Nat) (h : m.wfFrom lo = true) :
    (m.set off v).get a = if a = off then v else m.get a := by
  induction m generalizing lo with
  | nil =>
    by_cases hv : v = unlistedByte
    · simp [Memory.set, hv, Memory.get]
    · simp [Memory.set, hv, Memory.get]
  | cons e rest ih =>
    obtain ⟨k, b⟩ := e
    simp only [Memory.wfFrom, Bool.and_eq_true, decide_eq_true_eq] at h
    rw [Memory.set]
    split
    · rename_i hk
      split
      · rename_i hv
        by_cases ha : a = off
        · subst ha
          rw [Memory.get, if_neg (by omega), if_pos rfl, hv]
          exact Memory.get_of_lt h.2 (by omega)
        · rw [if_neg ha]
      · by_cases ha : a = off
        · simp [Memory.get, ha]
        · rw [Memory.get, if_neg ha]
    split
    · rename_i hk hk2
      subst hk2
      split
      · rename_i hv
        by_cases ha : a = off
        · subst ha
          rw [if_pos rfl, hv]
          exact Memory.get_of_lt h.2 (by omega)
        · simp [Memory.get, ha]
      · by_cases ha : a = off
        · simp [Memory.get, ha]
        · simp [Memory.get, ha]
    · rename_i hk hk2
      by_cases hak : a = k
      · subst hak
        rw [Memory.get, if_pos rfl, if_neg (by omega), Memory.get, if_pos rfl]
      · rw [Memory.get, if_neg hak, ih h.2, Memory.get, if_neg hak]

theorem Memory.get_set {m : Memory} (off : Nat) (v : Byte) (a : Nat) (h : m.wf = true) :
    (m.set off v).get a = if a = off then v else m.get a :=
  Memory.get_set_from off v a h

/-! ### Words -/

theorem Memory.wf_setWord {m : Memory} {w : Nat} (v : FlashWord) (h : m.wf = true) (hw : w < 512) :
    (m.setWord w v).wf = true :=
  Memory.wf_set _ (Memory.wf_set _ h (by simp only [flashBytes]; omega)) (by simp only [flashBytes]; omega)

theorem Memory.get_setWord {m : Memory} {w : Nat} (v : FlashWord) (a : Nat) (h : m.wf = true) (hw : w < 512) :
    (m.setWord w v).get a =
      if a = 2 * w then v.extractLsb' 0 8 else if a = 2 * w + 1 then v.extractLsb' 8 8 else m.get a := by
  have h1 := Memory.wf_set (off := 2 * w) (v.extractLsb' 0 8) h (by simp only [flashBytes]; omega)
  rw [Memory.setWord, Memory.get_set _ _ _ h1, Memory.get_set _ _ _ h]
  by_cases h2 : a = 2 * w
  · rw [if_neg (by omega), if_pos h2, if_pos h2]
  · rw [if_neg h2, if_neg h2]

/-- A 16-bit value is its two bytes. -/
theorem append_bytes (v : FlashWord) : v.extractLsb' 8 8 ++ v.extractLsb' 0 8 = v := by
  apply BitVec.eq_of_getLsbD_eq
  intro i hi
  rw [BitVec.getLsbD_append]
  split
  · rename_i h; simp [h]
  · simp [show i - 8 < 8 by omega, show 8 + (i - 8) = i by omega]

@[simp] theorem lowByte_append (hi lo : Byte) : (hi ++ lo).extractLsb' 0 8 = lo := by
  apply BitVec.eq_of_getLsbD_eq
  intro i h
  rw [BitVec.getLsbD_extractLsb']
  rw [BitVec.getLsbD_append, Nat.zero_add]
  simp [h]

@[simp] theorem highByte_append (hi lo : Byte) : (hi ++ lo).extractLsb' 8 8 = hi := by
  apply BitVec.eq_of_getLsbD_eq
  intro i h
  rw [BitVec.getLsbD_extractLsb']
  rw [BitVec.getLsbD_append]
  simp [h, show ¬ 8 + i < 8 by omega, show 8 + i - 8 = i by omega]

/-- Writing a word changes that word alone (R22). -/
theorem Memory.word_setWord {m : Memory} {w : Nat} (v : FlashWord) (x : Nat) (h : m.wf = true) (hw : w < 512) :
    (m.setWord w v).word x = if x = w then v else m.word x := by
  simp only [Memory.word, Memory.get_setWord v _ h hw]
  by_cases hx : x = w
  · subst hx
    rw [if_neg (by omega), if_pos rfl, if_pos rfl, if_pos rfl]
    exact append_bytes v
  · rw [if_neg (by omega), if_neg (by omega), if_neg (by omega), if_neg (by omega), if_neg hx]

/-! ### The effects -/

theorem Memory.eraseWords_spec {m : Memory} {base n : Nat} (h : m.wf = true) (hn : base + n ≤ 512) :
    (m.eraseWords base n).wf = true ∧
      ∀ x, (m.eraseWords base n).word x = if base ≤ x ∧ x < base + n then erasedWord else m.word x := by
  induction n with
  | zero => exact ⟨h, fun x => by rw [if_neg (by omega)]; rfl⟩
  | succ n ih =>
    obtain ⟨hwf, hword⟩ := ih (by omega)
    refine ⟨Memory.wf_setWord _ hwf (by omega), fun x => ?_⟩
    rw [Memory.eraseWords, Memory.word_setWord _ _ hwf (by omega), hword]
    by_cases hx : x = base + n
    · rw [if_pos hx, if_pos (by omega)]
    · rw [if_neg hx]
      by_cases h2 : base ≤ x ∧ x < base + n
      · rw [if_pos h2, if_pos (by omega)]
      · rw [if_neg h2, if_neg (by omega)]

/-- An erased page reads all ones and every other word is unchanged (R125). -/
theorem Memory.word_erasePage {m : Memory} (p : PageNo) (x : Nat) (h : m.wf = true) :
    (m.erasePage p).word x = if x / 8 = p.toNat then erasedWord else m.word x := by
  have hp := p.isLt
  rw [Memory.erasePage, (Memory.eraseWords_spec h (by simp only [pageWords]; omega)).2]
  by_cases hx : x / 8 = p.toNat
  · rw [if_pos (by simp only [pageWords]; omega), if_pos hx]
  · rw [if_neg (by simp only [pageWords]; omega), if_neg hx]

/-- A written word holds its old value AND the value, every other word is unchanged (R141). -/
theorem Memory.word_programWord {m : Memory} (w : WordIndex) (v : FlashWord) (x : Nat) (h : m.wf = true) :
    (m.programWord w v).word x = if x = w.toNat then m.word x &&& v else m.word x := by
  rw [Memory.programWord, Memory.word_setWord _ _ h w.isLt]
  by_cases hx : x = w.toNat
  · rw [if_pos hx, if_pos hx, hx]
  · rw [if_neg hx, if_neg hx]

theorem Memory.wf_apply {m : Memory} (eff : Effect) (h : m.wf = true) : (m.apply eff).wf = true := by
  cases eff with
  | noEffect => exact h
  | erasePage p =>
    have hp := p.isLt
    exact (Memory.eraseWords_spec h (by simp only [pageWords]; omega)).1
  | writeWord w v => exact Memory.wf_setWord _ h w.isLt

/-- Two flashes with the same words have the same bytes. -/
theorem Memory.get_of_word {m m' : Memory} (a : Nat) (h : m.word (a / 2) = m'.word (a / 2)) : m.get a = m'.get a := by
  rcases Nat.mod_two_eq_zero_or_one a with ha | ha
  · have := congrArg (fun v : FlashWord => v.extractLsb' 0 8) h
    simp only [Memory.word, lowByte_append] at this
    rwa [show 2 * (a / 2) = a by omega] at this
  · have := congrArg (fun v : FlashWord => v.extractLsb' 8 8) h
    simp only [Memory.word, highByte_append] at this
    rwa [show 2 * (a / 2) + 1 = a by omega] at this

/-! ### The unspecified flash -/

theorem Memory.ofDraw_spec (draw : Nat → Byte) (n : Nat) : ∀ lo, lo + n ≤ flashBytes →
    (Memory.ofDraw draw lo n).wfFrom lo = true ∧
      ∀ a, lo ≤ a → a < lo + n → (Memory.ofDraw draw lo n).get a = draw a := by
  induction n with
  | zero => exact fun lo _ => ⟨rfl, fun a h1 h2 => by omega⟩
  | succ n ih =>
    intro lo hlo
    obtain ⟨hwf, hget⟩ := ih (lo + 1) (by omega)
    by_cases hv : draw lo = unlistedByte
    · simp only [Memory.ofDraw, hv, if_true]
      refine ⟨Memory.wfFrom_mono hwf (by omega), fun a h1 h2 => ?_⟩
      by_cases ha : a = lo
      · rw [Memory.get_of_lt hwf (by omega), ha, hv]
      · exact hget a (by omega) (by omega)
    · simp only [Memory.ofDraw, hv, if_false]
      refine ⟨?_, fun a h1 h2 => ?_⟩
      · simp only [Memory.wfFrom, Bool.and_eq_true, decide_eq_true_eq, bne_iff_ne]
        exact ⟨⟨⟨by omega, by simp only [flashBytes] at *; omega⟩, hv⟩, hwf⟩
      · by_cases ha : a = lo
        · rw [Memory.get, if_pos ha, ha]
        · rw [Memory.get, if_neg ha]
          exact hget a (by omega) (by omega)

theorem Memory.wf_unspecified (n : Nat) : (Memory.unspecified n).wf = true :=
  (Memory.ofDraw_spec (Config.freeFlash n) flashBytes 0 (by omega)).1

/-- Every byte of the unspecified flash is a free value of its own (R43). -/
theorem Memory.get_unspecified (n a : Nat) (h : a < flashBytes) :
    (Memory.unspecified n).get a = Config.freeFlash n a :=
  (Memory.ofDraw_spec (Config.freeFlash n) flashBytes 0 (by omega)).2 a (by omega) (by omega)

end Sys2Proof.Machine
end

