-- ==== Sys2Proof/Laws/State.lean ====
section
/-! SUPPORT. One lemma per field for each named update of the state, so that no later proof unfolds a record update. -/

namespace Sys2Proof.Machine

/-! ### markFault (R43) -/

@[simp] theorem markFault_cfg (r : Fault) (s : State) : (markFault r s).cfg = s.cfg := rfl
@[simp] theorem markFault_flash (r : Fault) (s : State) : (markFault r s).flash = s.flash := rfl
@[simp] theorem markFault_cmd (r : Fault) (s : State) : (markFault r s).cmd = s.cmd := rfl
@[simp] theorem markFault_phase (r : Fault) (s : State) : (markFault r s).phase = s.phase := rfl
@[simp] theorem markFault_age (r : Fault) (s : State) : (markFault r s).age = s.age := rfl
@[simp] theorem markFault_ew (r : Fault) (s : State) : (markFault r s).ew = s.ew := rfl
@[simp] theorem markFault_lat (r : Fault) (s : State) : (markFault r s).lat = s.lat := rfl
@[simp] theorem markFault_eff (r : Fault) (s : State) : (markFault r s).eff = s.eff := rfl
@[simp] theorem markFault_tn (r : Fault) (s : State) : (markFault r s).tn = s.tn := rfl
@[simp] theorem markFault_fault (r : Fault) (s : State) : (markFault r s).fault = some (s.fault.getD r) := rfl
@[simp] theorem markFault_refused (r : Fault) (s : State) : (markFault r s).refused = s.refused := rfl
@[simp] theorem markFault_rdata (r : Fault) (s : State) : (markFault r s).rdata = s.rdata := rfl
@[simp] theorem markFault_result (r : Fault) (s : State) : (markFault r s).result = s.result := rfl
@[simp] theorem markFault_draws (r : Fault) (s : State) : (markFault r s).draws = s.draws := rfl
@[simp] theorem markFault_agenda (r : Fault) (s : State) : (markFault r s).agenda = s.agenda := rfl

/-! ### markRefused (R44) -/

@[simp] theorem markRefused_cfg (r : Refusal) (s : State) : (markRefused r s).cfg = s.cfg := rfl
@[simp] theorem markRefused_flash (r : Refusal) (s : State) : (markRefused r s).flash = s.flash := rfl
@[simp] theorem markRefused_cmd (r : Refusal) (s : State) : (markRefused r s).cmd = s.cmd := rfl
@[simp] theorem markRefused_phase (r : Refusal) (s : State) : (markRefused r s).phase = s.phase := rfl
@[simp] theorem markRefused_age (r : Refusal) (s : State) : (markRefused r s).age = s.age := rfl
@[simp] theorem markRefused_ew (r : Refusal) (s : State) : (markRefused r s).ew = s.ew := rfl
@[simp] theorem markRefused_lat (r : Refusal) (s : State) : (markRefused r s).lat = s.lat := rfl
@[simp] theorem markRefused_eff (r : Refusal) (s : State) : (markRefused r s).eff = s.eff := rfl
@[simp] theorem markRefused_tn (r : Refusal) (s : State) : (markRefused r s).tn = s.tn := rfl
@[simp] theorem markRefused_fault (r : Refusal) (s : State) : (markRefused r s).fault = s.fault := rfl
@[simp] theorem markRefused_refused (r : Refusal) (s : State) : (markRefused r s).refused = some (s.refused.getD r) := rfl
@[simp] theorem markRefused_rdata (r : Refusal) (s : State) : (markRefused r s).rdata = s.rdata := rfl
@[simp] theorem markRefused_result (r : Refusal) (s : State) : (markRefused r s).result = s.result := rfl
@[simp] theorem markRefused_draws (r : Refusal) (s : State) : (markRefused r s).draws = s.draws := rfl
@[simp] theorem markRefused_agenda (r : Refusal) (s : State) : (markRefused r s).agenda = s.agenda := rfl

/-! ### trigger (R121, R138) -/

@[simp] theorem trigger_cfg (e : Effect) (s : State) : (trigger e s).cfg = s.cfg := rfl
@[simp] theorem trigger_flash (e : Effect) (s : State) : (trigger e s).flash = s.flash := rfl
@[simp] theorem trigger_cmd (e : Effect) (s : State) : (trigger e s).cmd = s.cmd := rfl
@[simp] theorem trigger_phase (e : Effect) (s : State) : (trigger e s).phase = .triggered := rfl
@[simp] theorem trigger_age (e : Effect) (s : State) : (trigger e s).age = s.age := rfl
@[simp] theorem trigger_ew (e : Effect) (s : State) : (trigger e s).ew = 0 := rfl
@[simp] theorem trigger_lat (e : Effect) (s : State) : (trigger e s).lat = none := rfl
@[simp] theorem trigger_eff (e : Effect) (s : State) : (trigger e s).eff = e := rfl
@[simp] theorem trigger_tn (e : Effect) (s : State) : (trigger e s).tn = 2 := rfl
@[simp] theorem trigger_fault (e : Effect) (s : State) : (trigger e s).fault = s.fault := rfl
@[simp] theorem trigger_refused (e : Effect) (s : State) : (trigger e s).refused = s.refused := rfl
@[simp] theorem trigger_rdata (e : Effect) (s : State) : (trigger e s).rdata = s.rdata := rfl
@[simp] theorem trigger_result (e : Effect) (s : State) : (trigger e s).result = s.result := rfl
@[simp] theorem trigger_draws (e : Effect) (s : State) : (trigger e s).draws = s.draws := rfl
@[simp] theorem trigger_agenda (e : Effect) (s : State) : (trigger e s).agenda = s.agenda := rfl

/-! ### completeStep (R179) -/

@[simp] theorem completeStep_cfg (s : State) : (completeStep s).cfg = s.cfg := rfl
@[simp] theorem completeStep_flash (s : State) : (completeStep s).flash = s.flash.apply s.eff := rfl
@[simp] theorem completeStep_cmd (s : State) : (completeStep s).cmd = s.cmd := rfl
@[simp] theorem completeStep_phase (s : State) : (completeStep s).phase = .idle := rfl
@[simp] theorem completeStep_age (s : State) : (completeStep s).age = s.age := rfl
@[simp] theorem completeStep_ew (s : State) : (completeStep s).ew = s.ew := rfl
@[simp] theorem completeStep_lat (s : State) : (completeStep s).lat = s.lat := rfl
@[simp] theorem completeStep_eff (s : State) : (completeStep s).eff = .noEffect := rfl
@[simp] theorem completeStep_tn (s : State) : (completeStep s).tn = s.tn := rfl
@[simp] theorem completeStep_fault (s : State) : (completeStep s).fault = s.fault := rfl
@[simp] theorem completeStep_refused (s : State) : (completeStep s).refused = s.refused := rfl
@[simp] theorem completeStep_rdata (s : State) : (completeStep s).rdata = s.rdata := rfl
@[simp] theorem completeStep_result (s : State) : (completeStep s).result = s.result := rfl
@[simp] theorem completeStep_draws (s : State) : (completeStep s).draws = s.draws := rfl
@[simp] theorem completeStep_agenda (s : State) : (completeStep s).agenda = s.agenda := rfl

/-! ### clearSequencer (R220) -/

@[simp] theorem clearSequencer_cfg (s : State) : (clearSequencer s).cfg = s.cfg := rfl
@[simp] theorem clearSequencer_flash (s : State) : (clearSequencer s).flash = s.flash := rfl
@[simp] theorem clearSequencer_cmd (s : State) : (clearSequencer s).cmd = Config.freeCmd s.draws := rfl
@[simp] theorem clearSequencer_phase (s : State) : (clearSequencer s).phase = .idle := rfl
@[simp] theorem clearSequencer_age (s : State) : (clearSequencer s).age = 0 := rfl
@[simp] theorem clearSequencer_ew (s : State) : (clearSequencer s).ew = 0 := rfl
@[simp] theorem clearSequencer_lat (s : State) : (clearSequencer s).lat = none := rfl
@[simp] theorem clearSequencer_eff (s : State) : (clearSequencer s).eff = .noEffect := rfl
@[simp] theorem clearSequencer_tn (s : State) : (clearSequencer s).tn = 0 := rfl
@[simp] theorem clearSequencer_fault (s : State) : (clearSequencer s).fault = s.fault := rfl
@[simp] theorem clearSequencer_refused (s : State) : (clearSequencer s).refused = s.refused := rfl
@[simp] theorem clearSequencer_rdata (s : State) : (clearSequencer s).rdata = s.rdata := rfl
@[simp] theorem clearSequencer_result (s : State) : (clearSequencer s).result = s.result := rfl
@[simp] theorem clearSequencer_draws (s : State) : (clearSequencer s).draws = s.draws := rfl
@[simp] theorem clearSequencer_agenda (s : State) : (clearSequencer s).agenda = s.agenda := rfl

/-! ### loadCommand (R102) -/

@[simp] theorem loadCommand_cfg (d : Byte) (s : State) : (loadCommand d s).cfg = s.cfg := rfl
@[simp] theorem loadCommand_flash (d : Byte) (s : State) : (loadCommand d s).flash = s.flash := rfl
@[simp] theorem loadCommand_cmd (d : Byte) (s : State) : (loadCommand d s).cmd = d := rfl
@[simp] theorem loadCommand_phase (d : Byte) (s : State) : (loadCommand d s).phase = .cmdLoaded := rfl
@[simp] theorem loadCommand_age (d : Byte) (s : State) : (loadCommand d s).age = 0 := rfl
@[simp] theorem loadCommand_ew (d : Byte) (s : State) : (loadCommand d s).ew = s.ew := rfl
@[simp] theorem loadCommand_lat (d : Byte) (s : State) : (loadCommand d s).lat = none := rfl
@[simp] theorem loadCommand_eff (d : Byte) (s : State) : (loadCommand d s).eff = s.eff := rfl
@[simp] theorem loadCommand_tn (d : Byte) (s : State) : (loadCommand d s).tn = s.tn := rfl
@[simp] theorem loadCommand_fault (d : Byte) (s : State) : (loadCommand d s).fault = s.fault := rfl
@[simp] theorem loadCommand_refused (d : Byte) (s : State) : (loadCommand d s).refused = s.refused := rfl
@[simp] theorem loadCommand_rdata (d : Byte) (s : State) : (loadCommand d s).rdata = s.rdata := rfl
@[simp] theorem loadCommand_result (d : Byte) (s : State) : (loadCommand d s).result = s.result := rfl
@[simp] theorem loadCommand_draws (d : Byte) (s : State) : (loadCommand d s).draws = s.draws := rfl
@[simp] theorem loadCommand_agenda (d : Byte) (s : State) : (loadCommand d s).agenda = s.agenda := rfl

/-! ### armCommand (R104) -/

@[simp] theorem armCommand_cfg (s : State) : (armCommand s).cfg = s.cfg := rfl
@[simp] theorem armCommand_flash (s : State) : (armCommand s).flash = s.flash := rfl
@[simp] theorem armCommand_cmd (s : State) : (armCommand s).cmd = s.cmd := rfl
@[simp] theorem armCommand_phase (s : State) : (armCommand s).phase = .armed := rfl
@[simp] theorem armCommand_age (s : State) : (armCommand s).age = s.age := rfl
@[simp] theorem armCommand_ew (s : State) : (armCommand s).ew = 4 := rfl
@[simp] theorem armCommand_lat (s : State) : (armCommand s).lat = none := rfl
@[simp] theorem armCommand_eff (s : State) : (armCommand s).eff = s.eff := rfl
@[simp] theorem armCommand_tn (s : State) : (armCommand s).tn = s.tn := rfl
@[simp] theorem armCommand_fault (s : State) : (armCommand s).fault = s.fault := rfl
@[simp] theorem armCommand_refused (s : State) : (armCommand s).refused = s.refused := rfl
@[simp] theorem armCommand_rdata (s : State) : (armCommand s).rdata = s.rdata := rfl
@[simp] theorem armCommand_result (s : State) : (armCommand s).result = s.result := rfl
@[simp] theorem armCommand_draws (s : State) : (armCommand s).draws = s.draws := rfl
@[simp] theorem armCommand_agenda (s : State) : (armCommand s).agenda = s.agenda := rfl

/-! ### keepBusy (R89) -/

@[simp] theorem keepBusy_cfg (s : State) : (keepBusy s).cfg = s.cfg := rfl
@[simp] theorem keepBusy_flash (s : State) : (keepBusy s).flash = s.flash := rfl
@[simp] theorem keepBusy_cmd (s : State) : (keepBusy s).cmd = s.cmd := rfl
@[simp] theorem keepBusy_phase (s : State) : (keepBusy s).phase = s.phase := rfl
@[simp] theorem keepBusy_age (s : State) : (keepBusy s).age = s.age := rfl
@[simp] theorem keepBusy_ew (s : State) : (keepBusy s).ew = s.ew := rfl
@[simp] theorem keepBusy_lat (s : State) : (keepBusy s).lat = s.lat := rfl
@[simp] theorem keepBusy_eff (s : State) : (keepBusy s).eff = s.eff := rfl
@[simp] theorem keepBusy_tn (s : State) : (keepBusy s).tn = s.tn := rfl
@[simp] theorem keepBusy_fault (s : State) : (keepBusy s).fault = s.fault := rfl
@[simp] theorem keepBusy_refused (s : State) : (keepBusy s).refused = s.refused := rfl
@[simp] theorem keepBusy_rdata (s : State) : (keepBusy s).rdata = s.rdata := rfl
@[simp] theorem keepBusy_result (s : State) : (keepBusy s).result = bif s.readsBusy then 1#16 else 0#16 := rfl
@[simp] theorem keepBusy_draws (s : State) : (keepBusy s).draws = s.draws := rfl
@[simp] theorem keepBusy_agenda (s : State) : (keepBusy s).agenda = s.agenda := rfl

/-! ### unspecifyFlash (R43): the flash alone may change -/

@[simp] theorem unspecifyFlash_cfg (s : State) : (unspecifyFlash s).cfg = s.cfg := by
  unfold unspecifyFlash; split <;> rfl
@[simp] theorem unspecifyFlash_cmd (s : State) : (unspecifyFlash s).cmd = s.cmd := by
  unfold unspecifyFlash; split <;> rfl
@[simp] theorem unspecifyFlash_phase (s : State) : (unspecifyFlash s).phase = s.phase := by
  unfold unspecifyFlash; split <;> rfl
@[simp] theorem unspecifyFlash_age (s : State) : (unspecifyFlash s).age = s.age := by
  unfold unspecifyFlash; split <;> rfl
@[simp] theorem unspecifyFlash_ew (s : State) : (unspecifyFlash s).ew = s.ew := by
  unfold unspecifyFlash; split <;> rfl
@[simp] theorem unspecifyFlash_lat (s : State) : (unspecifyFlash s).lat = s.lat := by
  unfold unspecifyFlash; split <;> rfl
@[simp] theorem unspecifyFlash_eff (s : State) : (unspecifyFlash s).eff = s.eff := by
  unfold unspecifyFlash; split <;> rfl
@[simp] theorem unspecifyFlash_tn (s : State) : (unspecifyFlash s).tn = s.tn := by
  unfold unspecifyFlash; split <;> rfl
@[simp] theorem unspecifyFlash_fault (s : State) : (unspecifyFlash s).fault = s.fault := by
  unfold unspecifyFlash; split <;> rfl
@[simp] theorem unspecifyFlash_refused (s : State) : (unspecifyFlash s).refused = s.refused := by
  unfold unspecifyFlash; split <;> rfl
@[simp] theorem unspecifyFlash_rdata (s : State) : (unspecifyFlash s).rdata = s.rdata := by
  unfold unspecifyFlash; split <;> rfl
@[simp] theorem unspecifyFlash_result (s : State) : (unspecifyFlash s).result = s.result := by
  unfold unspecifyFlash; split <;> rfl
@[simp] theorem unspecifyFlash_draws (s : State) : (unspecifyFlash s).draws = s.draws := by
  unfold unspecifyFlash; split <;> rfl
@[simp] theorem unspecifyFlash_agenda (s : State) : (unspecifyFlash s).agenda = s.agenda := by
  unfold unspecifyFlash; split <;> rfl

theorem unspecifyFlash_flash (s : State) :
    (unspecifyFlash s).flash = match s.fault with
      | none => s.flash
      | some _ => Memory.unspecified s.draws := by
  unfold unspecifyFlash; split <;> simp [*]

/-! ### endCycle (R80, R100): the answer, the draw, and the flash after a fault -/

@[simp] theorem endCycle_cfg (a : Option Byte) (s : State) : (endCycle a s).cfg = s.cfg := unspecifyFlash_cfg s
@[simp] theorem endCycle_cmd (a : Option Byte) (s : State) : (endCycle a s).cmd = s.cmd := unspecifyFlash_cmd s
@[simp] theorem endCycle_phase (a : Option Byte) (s : State) : (endCycle a s).phase = s.phase := unspecifyFlash_phase s
@[simp] theorem endCycle_age (a : Option Byte) (s : State) : (endCycle a s).age = s.age := unspecifyFlash_age s
@[simp] theorem endCycle_ew (a : Option Byte) (s : State) : (endCycle a s).ew = s.ew := unspecifyFlash_ew s
@[simp] theorem endCycle_lat (a : Option Byte) (s : State) : (endCycle a s).lat = s.lat := unspecifyFlash_lat s
@[simp] theorem endCycle_eff (a : Option Byte) (s : State) : (endCycle a s).eff = s.eff := unspecifyFlash_eff s
@[simp] theorem endCycle_tn (a : Option Byte) (s : State) : (endCycle a s).tn = s.tn := unspecifyFlash_tn s
@[simp] theorem endCycle_fault (a : Option Byte) (s : State) : (endCycle a s).fault = s.fault := unspecifyFlash_fault s
@[simp] theorem endCycle_refused (a : Option Byte) (s : State) : (endCycle a s).refused = s.refused := unspecifyFlash_refused s
@[simp] theorem endCycle_result (a : Option Byte) (s : State) : (endCycle a s).result = s.result := unspecifyFlash_result s
@[simp] theorem endCycle_agenda (a : Option Byte) (s : State) : (endCycle a s).agenda = s.agenda := unspecifyFlash_agenda s
@[simp] theorem endCycle_draws (a : Option Byte) (s : State) : (endCycle a s).draws = s.draws + 1 := rfl

/-- Without a fault a cycle gives its answer and makes one draw. -/
theorem endCycle_clean (a : Option Byte) {s : State} (h : s.fault = none) :
    endCycle a s = { s with rdata := a.getD (Config.freeByte s.draws), draws := s.draws + 1 } := by
  simp [endCycle, unspecifyFlash, h]

/-- With a fault the flash and the answer are free values (R43). -/
theorem endCycle_faulted (a : Option Byte) {s : State} {r : Fault} (h : s.fault = some r) :
    endCycle a s = { s with flash := Memory.unspecified s.draws, rdata := Config.freeByte s.draws,
                            draws := s.draws + 1 } := by
  simp [endCycle, unspecifyFlash, h]

/-! ### aging (R176 to R178): the sequencer alone may change -/

@[simp] theorem aging_cfg (n : Bool) (s : State) : (aging n s).cfg = s.cfg := by
  cases n <;> simp only [aging, ageCmdLoaded, ageArmed, ageTriggered, cond_true, cond_false] <;> repeat' (first | rfl | split)
@[simp] theorem aging_flash (n : Bool) (s : State) : (aging n s).flash = s.flash := by
  cases n <;> simp only [aging, ageCmdLoaded, ageArmed, ageTriggered, cond_true, cond_false] <;> repeat' (first | rfl | split)
@[simp] theorem aging_cmd (n : Bool) (s : State) : (aging n s).cmd = s.cmd := by
  cases n <;> simp only [aging, ageCmdLoaded, ageArmed, ageTriggered, cond_true, cond_false] <;> repeat' (first | rfl | split)
@[simp] theorem aging_eff (n : Bool) (s : State) : (aging n s).eff = s.eff := by
  cases n <;> simp only [aging, ageCmdLoaded, ageArmed, ageTriggered, cond_true, cond_false] <;> repeat' (first | rfl | split)
@[simp] theorem aging_fault (n : Bool) (s : State) : (aging n s).fault = s.fault := by
  cases n <;> simp only [aging, ageCmdLoaded, ageArmed, ageTriggered, cond_true, cond_false] <;> repeat' (first | rfl | split)
@[simp] theorem aging_refused (n : Bool) (s : State) : (aging n s).refused = s.refused := by
  cases n <;> simp only [aging, ageCmdLoaded, ageArmed, ageTriggered, cond_true, cond_false] <;> repeat' (first | rfl | split)
@[simp] theorem aging_rdata (n : Bool) (s : State) : (aging n s).rdata = s.rdata := by
  cases n <;> simp only [aging, ageCmdLoaded, ageArmed, ageTriggered, cond_true, cond_false] <;> repeat' (first | rfl | split)
@[simp] theorem aging_result (n : Bool) (s : State) : (aging n s).result = s.result := by
  cases n <;> simp only [aging, ageCmdLoaded, ageArmed, ageTriggered, cond_true, cond_false] <;> repeat' (first | rfl | split)
@[simp] theorem aging_draws (n : Bool) (s : State) : (aging n s).draws = s.draws := by
  cases n <;> simp only [aging, ageCmdLoaded, ageArmed, ageTriggered, cond_true, cond_false] <;> repeat' (first | rfl | split)
@[simp] theorem aging_agenda (n : Bool) (s : State) : (aging n s).agenda = s.agenda := by
  cases n <;> simp only [aging, ageCmdLoaded, ageArmed, ageTriggered, cond_true, cond_false] <;> repeat' (first | rfl | split)

/-- Only a NOP pays an owed cycle (R178). -/
@[simp] theorem aging_false_tn (s : State) : (aging false s).tn = s.tn := by
  simp only [aging, ageCmdLoaded, ageArmed, cond_false]; repeat' (first | rfl | split)

/-- No aging in Idle (R181). -/
theorem aging_idle (n : Bool) {s : State} (h : s.phase = .idle) : aging n s = s := by simp [aging, h]

/-- No aging in Busy (R181). -/
theorem aging_busy (n : Bool) {s : State} (h : s.phase = .busy) : aging n s = s := by simp [aging, h]

/-- In Triggered an operation other than NOP does not age (R178). -/
theorem aging_triggered {s : State} (h : s.phase = .triggered) : aging false s = s := by simp [aging, h]

/-! ### quietCycle (R100) -/

@[simp] theorem quietCycle_cfg (s : State) : (quietCycle s).cfg = s.cfg := by simp [quietCycle]
@[simp] theorem quietCycle_cmd (s : State) : (quietCycle s).cmd = s.cmd := by simp [quietCycle]
@[simp] theorem quietCycle_eff (s : State) : (quietCycle s).eff = s.eff := by simp [quietCycle]
@[simp] theorem quietCycle_tn (s : State) : (quietCycle s).tn = s.tn := by simp [quietCycle]
@[simp] theorem quietCycle_fault (s : State) : (quietCycle s).fault = s.fault := by simp [quietCycle]
@[simp] theorem quietCycle_refused (s : State) : (quietCycle s).refused = s.refused := by simp [quietCycle]
@[simp] theorem quietCycle_result (s : State) : (quietCycle s).result = s.result := by simp [quietCycle]
@[simp] theorem quietCycle_agenda (s : State) : (quietCycle s).agenda = s.agenda := by simp [quietCycle]

/-- Where the phase does not age, the cycle leaves the sequencer as it is. -/
theorem quietCycle_still {s : State} (h : s.phase = .idle ∨ s.phase = .triggered ∨ s.phase = .busy) :
    quietCycle s = endCycle none s := by
  rcases h with h | h | h
  · rw [quietCycle, aging_idle _ h]
  · rw [quietCycle, aging_triggered h]
  · rw [quietCycle, aging_busy _ h]

/-! ### refuseReserved (R103) -/

@[simp] theorem refuseReserved_cfg (d : Byte) (s : State) : (refuseReserved d s).cfg = s.cfg := by
  unfold refuseReserved; cases legalCode s.cfg d <;> rfl
@[simp] theorem refuseReserved_flash (d : Byte) (s : State) : (refuseReserved d s).flash = s.flash := by
  unfold refuseReserved; cases legalCode s.cfg d <;> rfl
@[simp] theorem refuseReserved_cmd (d : Byte) (s : State) : (refuseReserved d s).cmd = s.cmd := by
  unfold refuseReserved; cases legalCode s.cfg d <;> rfl
@[simp] theorem refuseReserved_phase (d : Byte) (s : State) : (refuseReserved d s).phase = s.phase := by
  unfold refuseReserved; cases legalCode s.cfg d <;> rfl
@[simp] theorem refuseReserved_age (d : Byte) (s : State) : (refuseReserved d s).age = s.age := by
  unfold refuseReserved; cases legalCode s.cfg d <;> rfl
@[simp] theorem refuseReserved_ew (d : Byte) (s : State) : (refuseReserved d s).ew = s.ew := by
  unfold refuseReserved; cases legalCode s.cfg d <;> rfl
@[simp] theorem refuseReserved_lat (d : Byte) (s : State) : (refuseReserved d s).lat = s.lat := by
  unfold refuseReserved; cases legalCode s.cfg d <;> rfl
@[simp] theorem refuseReserved_eff (d : Byte) (s : State) : (refuseReserved d s).eff = s.eff := by
  unfold refuseReserved; cases legalCode s.cfg d <;> rfl
@[simp] theorem refuseReserved_tn (d : Byte) (s : State) : (refuseReserved d s).tn = s.tn := by
  unfold refuseReserved; cases legalCode s.cfg d <;> rfl
@[simp] theorem refuseReserved_fault (d : Byte) (s : State) : (refuseReserved d s).fault = s.fault := by
  unfold refuseReserved; cases legalCode s.cfg d <;> rfl
@[simp] theorem refuseReserved_rdata (d : Byte) (s : State) : (refuseReserved d s).rdata = s.rdata := by
  unfold refuseReserved; cases legalCode s.cfg d <;> rfl
@[simp] theorem refuseReserved_result (d : Byte) (s : State) : (refuseReserved d s).result = s.result := by
  unfold refuseReserved; cases legalCode s.cfg d <;> rfl
@[simp] theorem refuseReserved_draws (d : Byte) (s : State) : (refuseReserved d s).draws = s.draws := by
  unfold refuseReserved; cases legalCode s.cfg d <;> rfl
@[simp] theorem refuseReserved_agenda (d : Byte) (s : State) : (refuseReserved d s).agenda = s.agenda := by
  unfold refuseReserved; cases legalCode s.cfg d <;> rfl

/-- A reserved code is marked (R103). -/
theorem refuseReserved_reserved {d : Byte} {s : State} (h : legalCode s.cfg d = false) :
    refuseReserved d s = markRefused .reservedCommand s := by simp [refuseReserved, h]

/-- A legal code is not. -/
theorem refuseReserved_legal {d : Byte} {s : State} (h : legalCode s.cfg d = true) : refuseReserved d s = s := by
  simp [refuseReserved, h]

theorem legalCode_iff {c : Config} {d : Byte} :
    legalCode c d = true ↔ d = c.pageEraseCode ∨ d = c.wordWriteCode := by simp [legalCode]

end Sys2Proof.Machine
end

