-- ==== Sys2Proof/Laws/Cycle.lean ====
section
/-! SUPPORT. What one bus cycle can do, said once: the frame of every bus operation, and the invariant of R35 through the shared operations. -/

namespace Sys2Proof.Machine

/-! ### The frame of a bus cycle -/

/-- What every bus cycle from `s` to `t` does to the state outside the sequencer: the parameters, the agenda
and software's result stay; one draw is made; the marks are sticky (R43, R44); the flash stays without a
fault and is unspecified with one, with the answer (R22, R43). -/
structure CycleFrame (s t : State) : Prop where
  cfg         : t.cfg = s.cfg
  agenda      : t.agenda = s.agenda
  result      : t.result = s.result
  draws       : t.draws = s.draws + 1
  flashKept   : t.fault = none → t.flash = s.flash
  flashLost   : t.fault ≠ none → t.flash = Memory.unspecified s.draws ∧ t.rdata = Config.freeByte s.draws
  faultKept   : ∀ r, s.fault = some r → t.fault = some r
  refusedKept : ∀ r, s.refused = some r → t.refused = some r

/-- What an operation rule must leave alone for its cycle to have the frame. -/
structure RuleFrame (s t : State) : Prop where
  cfg         : t.cfg = s.cfg
  agenda      : t.agenda = s.agenda
  result      : t.result = s.result
  draws       : t.draws = s.draws
  flash       : t.flash = s.flash
  faultKept   : ∀ r, s.fault = some r → t.fault = some r
  refusedKept : ∀ r, s.refused = some r → t.refused = some r

theorem RuleFrame.refl (s : State) : RuleFrame s s := ⟨rfl, rfl, rfl, rfl, rfl, fun _ h => h, fun _ h => h⟩

theorem RuleFrame.trans {s t u : State} (h : RuleFrame s t) (k : RuleFrame t u) : RuleFrame s u :=
  ⟨k.cfg.trans h.cfg, k.agenda.trans h.agenda, k.result.trans h.result, k.draws.trans h.draws,
    k.flash.trans h.flash, fun r hr => k.faultKept r (h.faultKept r hr),
    fun r hr => k.refusedKept r (h.refusedKept r hr)⟩

theorem markFault_rule (r : Fault) (s : State) : RuleFrame s (markFault r s) :=
  ⟨rfl, rfl, rfl, rfl, rfl, fun _ h => by simp [h], fun _ h => by simpa using h⟩

theorem markRefused_rule (r : Refusal) (s : State) : RuleFrame s (markRefused r s) :=
  ⟨rfl, rfl, rfl, rfl, rfl, fun _ h => by simpa using h, fun _ h => by simp [h]⟩

theorem aging_rule (n : Bool) (s : State) : RuleFrame s (aging n s) :=
  ⟨by simp, by simp, by simp, by simp, by simp, fun _ h => by simpa using h, fun _ h => by simpa using h⟩

theorem refuseReserved_rule (d : Byte) (s : State) : RuleFrame s (refuseReserved d s) := by
  unfold refuseReserved
  cases legalCode s.cfg d
  · exact markRefused_rule _ s
  · exact RuleFrame.refl s

/-- The end of a cycle turns the rule's frame into the cycle's. -/
theorem endCycle_frame (a : Option Byte) {s t : State} (h : RuleFrame s t) : CycleFrame s (endCycle a t) where
  cfg := by simpa using h.cfg
  agenda := by simpa using h.agenda
  result := by simpa using h.result
  draws := by simp [h.draws]
  flashKept hf := by
    have hf : t.fault = none := by simpa using hf
    rw [endCycle_clean a hf]; exact h.flash
  flashLost hf := by
    obtain ⟨r, hr⟩ := Option.ne_none_iff_exists'.mp (by simpa using hf : t.fault ≠ none)
    rw [endCycle_faulted a hr, h.draws]; exact ⟨rfl, rfl⟩
  faultKept r hr := by simpa using h.faultKept r hr
  refusedKept r hr := by simpa using h.refusedKept r hr

theorem quietCycle_frame {s t : State} (h : RuleFrame s t) : CycleFrame s (quietCycle t) :=
  endCycle_frame none (h.trans (aging_rule false t))

/-- A cycle whose operation rule touches nothing of the sequencer only ages its window. -/
theorem quietCycle_onlyAges {s u : State} (h : RuleFrame s u) (hp : u.phase = s.phase) (ha : u.age = s.age)
    (hw : u.ew = s.ew) (hl : u.lat = s.lat) (hc : u.cmd = s.cmd) (he : u.eff = s.eff) (ht : u.tn = s.tn) :
    OnlyAges s (quietCycle u) where
  cfg := (quietCycle_frame h).cfg
  agenda := (quietCycle_frame h).agenda
  result := (quietCycle_frame h).result
  cmd := by simp [hc]
  eff := by simp [he]
  tn := by simp [ht]
  rdata := by
    cases hf : u.fault with
    | none => rw [quietCycle, endCycle_clean none (by simp [hf])]; simp [h.draws]
    | some r => rw [quietCycle, endCycle_faulted (r := r) none (by simp [hf])]; simp [h.draws]
  flash := (quietCycle_frame h).flashKept
  still hs := by
    rw [quietCycle_still (s := u) (by rwa [hp])]
    simp [hp, ha, hw, hl]
  cmdLoaded hs := by
    simp only [quietCycle, endCycle_phase, endCycle_age, endCycle_ew, endCycle_lat, aging, hp.trans hs, ageCmdLoaded,
      ha, h.cfg]
    split
    · simp [hw, hl]
    · simp [hw, hl]
  armed hs := by
    simp only [quietCycle, endCycle_phase, endCycle_age, endCycle_ew, endCycle_lat, aging, hp.trans hs, ageArmed, hw]
    split
    · simp [ha]; omega
    · simp [ha, hl]

theorem refusedCycle_frame (r : Refusal) (s : State) : CycleFrame s (refusedCycle r s) := by
  unfold refusedCycle
  split
  · exact quietCycle_frame ((markRefused_rule r s).trans (markFault_rule _ _))
  all_goals exact quietCycle_frame (markRefused_rule r s)

theorem trigger_rule (e : Effect) (s : State) : RuleFrame s (trigger e s) :=
  ⟨rfl, rfl, rfl, rfl, rfl, fun _ h => h, fun _ h => h⟩

theorem armedStoreCycle_frame (off : Offset) (d : Byte) (s : State) : CycleFrame s (armedStoreCycle off d s) := by
  unfold armedStoreCycle
  split
  · exact endCycle_frame none (trigger_rule _ s)
  split
  · unfold writeStoreCycle
    split
    · exact quietCycle_frame ⟨rfl, rfl, rfl, rfl, rfl, fun _ h => h, fun _ h => h⟩
    · exact endCycle_frame none (trigger_rule _ s)
    · exact quietCycle_frame (markFault_rule _ s)
  · exact quietCycle_frame (markRefused_rule _ s)

/-- The frame of every bus operation. -/
theorem cycleOf_frame {i : Instr} (hi : i.isBus = true) (s : State) : CycleFrame s (cycleOf i s) := by
  have hres : ∀ d, CycleFrame s (quietCycle (refuseReserved d s)) := fun d =>
    quietCycle_frame (refuseReserved_rule d s)
  have hint : CycleFrame s (interleavedCycle s) := quietCycle_frame (markRefused_rule _ s)
  have hhaz : CycleFrame s (hazardCycle s) := quietCycle_frame (markFault_rule _ s)
  have hbusy : CycleFrame s (busyWriteCycle s) := quietCycle_frame (markFault_rule _ s)
  have hend : ∀ a, CycleFrame s (endCycle a s) := fun a => endCycle_frame a (RuleFrame.refl s)
  cases i <;> simp only [Instr.isBus, Bool.false_eq_true] at hi <;> simp only [cycleOf]
  case nop => exact endCycle_frame none (aging_rule true s)
  case rdCmd => exact refusedCycle_frame _ s
  case wrCmd d =>
    have h1 : CycleFrame s (hazardCycle (refuseReserved d s)) :=
      quietCycle_frame ((refuseReserved_rule d s).trans (markFault_rule _ _))
    have h2 : CycleFrame s (busyWriteCycle (refuseReserved d s)) :=
      quietCycle_frame ((refuseReserved_rule d s).trans (markFault_rule _ _))
    have h3 : CycleFrame s (endCycle none (loadCommand d s)) :=
      endCycle_frame none ⟨rfl, rfl, rfl, rfl, rfl, fun _ h => h, fun _ h => h⟩
    unfold wrCmdCycle
    cases s.phase <;> cases legalCode s.cfg d <;> simp only [cond_true, cond_false] <;>
      first | exact h3 | exact hres d | exact hint | exact h1 | exact h2
  case rdProt => exact refusedCycle_frame _ s
  case wrProt d =>
    have h3 : CycleFrame s (endCycle none (armCommand s)) :=
      endCycle_frame none ⟨rfl, rfl, rfl, rfl, rfl, fun _ h => h, fun _ h => h⟩
    unfold wrProtCycle
    cases s.phase <;> simp only
    · exact quietCycle_frame (RuleFrame.refl s)
    · split
      · exact h3
      · exact hint
    · exact hint
    · exact hhaz
    · exact hbusy
  case rdStatus => unfold rdStatusCycle; split <;> first | exact hend _ | exact hint | exact hhaz
  case wrStatus d => exact refusedCycle_frame _ s
  case ldFlash off => unfold ldFlashCycle; split <;> first | exact hend _ | exact hint | exact hhaz
  case stFlash off d =>
    unfold stFlashCycle
    split
    · exact quietCycle_frame (markFault_rule _ s)
    · exact quietCycle_frame (markFault_rule _ s)
    · exact armedStoreCycle_frame off d s
    · exact hhaz
    · exact hbusy
  case rsvdSelOdd mid => exact refusedCycle_frame _ s
  case rsvdSelSix => exact refusedCycle_frame _ s

/-- A bus operation always has a next state: its cycle. -/
theorem exec_bus {i : Instr} (hi : i.isBus = true) (s : State) : exec i s = .next (cycleOf i s) := by
  cases i <;> first | rfl | simp [Instr.isBus] at hi

/-! ### Sequences of operations -/

@[simp] theorem runOps_nil (s : State) : runOps [] s = s := rfl

@[simp] theorem runOps_cons (i : Instr) (is : List Instr) (s : State) :
    runOps (i :: is) s = runOps is (cycleOf i s) := rfl

theorem runOps_append (is js : List Instr) (s : State) : runOps (is ++ js) s = runOps js (runOps is s) := by
  induction is generalizing s with
  | nil => rfl
  | cons i is ih => exact ih _

/-- The frame of a sequence: what no operation changes. -/
theorem runOps_frame {is : List Instr} (h : ∀ i ∈ is, i.isBus = true) (s : State) :
    (runOps is s).cfg = s.cfg ∧ (runOps is s).agenda = s.agenda ∧ (runOps is s).result = s.result := by
  induction is generalizing s with
  | nil => exact ⟨rfl, rfl, rfl⟩
  | cons i is ih =>
    have hf := cycleOf_frame (h i (by simp)) s
    obtain ⟨h1, h2, h3⟩ := ih (fun j hj => h j (by simp [hj])) (cycleOf i s)
    exact ⟨h1.trans hf.cfg, h2.trans hf.agenda, h3.trans hf.result⟩

theorem runOps_marks {is : List Instr} (h : ∀ i ∈ is, i.isBus = true) (s : State) :
    (∀ r, s.fault = some r → (runOps is s).fault = some r) ∧
      (∀ r, s.refused = some r → (runOps is s).refused = some r) := by
  induction is generalizing s with
  | nil => exact ⟨fun _ h => h, fun _ h => h⟩
  | cons i is ih =>
    have hf := cycleOf_frame (h i (by simp)) s
    obtain ⟨h1, h2⟩ := ih (fun j hj => h j (by simp [hj])) (cycleOf i s)
    exact ⟨fun r hr => h1 r (hf.faultKept r hr), fun r hr => h2 r (hf.refusedKept r hr)⟩

theorem nopOps_isBus (g : Nat) : ∀ i ∈ nopOps g, i.isBus = true := by
  intro i hi
  rw [List.eq_of_mem_replicate hi]; rfl

theorem decode_isBus (T : Transaction) : (decode T).isBus = true := by
  unfold decode
  rcases sel_cases (selOf T) with h | h | h | h | h | h | h | h <;> rw [h] <;> cases rwOf T <;> rfl

theorem eraseOps_isBus (c : Config) (addr : Nat) (d : Byte) (g1 g2 more : Nat) :
    ∀ i ∈ eraseOps c addr d g1 g2 more, i.isBus = true := by
  intro i hi
  simp only [eraseOps, List.mem_append, List.mem_singleton] at hi
  rcases hi with ((((h | h) | h) | h) | h) | h
  · rw [h]; rfl
  · exact nopOps_isBus _ _ h
  · rw [h]; rfl
  · exact nopOps_isBus _ _ h
  · rw [h]; exact decode_isBus _
  · exact nopOps_isBus _ _ h

theorem writeOps_isBus (c : Config) (addr : Nat) (w : FlashWord) (g1 g2 g3 : Nat) :
    ∀ i ∈ writeOps c addr w g1 g2 g3, i.isBus = true := by
  intro i hi
  simp only [writeOps, List.mem_append, List.mem_singleton] at hi
  rcases hi with ((((((h | h) | h) | h) | h) | h) | h) | h
  · rw [h]; rfl
  · exact nopOps_isBus _ _ h
  · rw [h]; rfl
  · exact nopOps_isBus _ _ h
  · rw [h]; exact decode_isBus _
  · exact nopOps_isBus _ _ h
  · rw [h]; exact decode_isBus _
  · exact nopOps_isBus _ _ h

end Sys2Proof.Machine
end

