-- ==== Sys2Proof/Laws/Decode.lean ====
section
/-! SUPPORT. Decoding an encoded operation, the words of an expansion, and the operations the address decoder chooses. -/

namespace Sys2Proof

/-- Decoding looks at the four fields (R81). -/
theorem decode_pack (rw : Bool) (sel : BitVec 3) (off : Offset) (data : Byte) :
    decode (pack rw sel off data) =
      if sel = 0b000#3 then .nop
      else if sel = 0b001#3 then bif rw then .wrCmd data else .rdCmd
      else if sel = 0b010#3 then bif rw then .wrProt data else .rdProt
      else if sel = 0b011#3 then bif rw then .wrStatus data else .rdStatus
      else if sel = 0b100#3 then bif rw then .stFlash off data else .ldFlash off
      else if sel = 0b110#3 then .rsvdSelSix
      else .rsvdSelOdd (sel.extractLsb' 1 1) := by
  simp only [decode, rwOf_pack, selOf_pack, offOf_pack, dataOf_pack]

/-- The word of an operation decodes to it. -/
theorem decode_encodeOp {i : Instr} {T : Transaction} (h : encodeOp i = some T) : decode T = i := by
  cases i <;> simp only [encodeOp, Option.some.injEq, reduceCtorEq] at h <;> subst h <;> rw [decode_pack] <;>
    simp only [cond_true, cond_false, BitVec.reduceEq, if_true, if_false]
  case rsvdSelOdd mid =>
    revert mid; decide

/-- An operation of the bus has a word. -/
theorem encodeOp_isBus {i : Instr} (h : i.isBus = true) : ∃ T, encodeOp i = some T := by
  cases i <;> first | exact ⟨_, rfl⟩ | simp [Instr.isBus] at h

/-- The words of a list of bus operations decode to the list. -/
theorem decode_words {is : List Instr} (h : ∀ i ∈ is, i.isBus = true) :
    (is.filterMap encodeOp).map decode = is := by
  induction is with
  | nil => rfl
  | cons i is ih =>
    obtain ⟨T, hT⟩ := encodeOp_isBus (h i (by simp))
    rw [List.filterMap_cons_some hT, List.map_cons, decode_encodeOp hT, ih fun j hj => h j (by simp [hj])]

end Sys2Proof

namespace Sys2Proof.Machine

theorem pollOps_isBus (polls : List Nat) (last : Nat) : ∀ i ∈ pollOps polls last, i.isBus = true := by
  intro i hi
  simp only [pollOps, List.mem_append, List.mem_flatMap, List.mem_cons] at hi
  rcases hi with ⟨g, -, h | h⟩ | h | h
  · rw [h]; rfl
  · exact nopOps_isBus _ _ h
  · rw [h]; rfl
  · exact nopOps_isBus _ _ h

/-- An expansion is made of bus operations (R93). -/
theorem expansion_isBus (c : Config) (i : Instr) : ∀ j ∈ expansion c i, j.isBus = true := by
  intro j hj
  cases i <;> simp only [expansion, List.mem_singleton, List.not_mem_nil, List.mem_append] at hj
  case readByte => rw [hj]; exact decode_isBus _
  case writeByte => rw [hj]; exact decode_isBus _
  case waitNotBusy => exact pollOps_isBus _ _ _ hj
  case erasePage =>
    rcases hj with h | h
    · exact eraseOps_isBus _ _ _ _ _ _ _ h
    · exact pollOps_isBus _ _ _ h
  case writeWord =>
    rcases hj with h | h
    · exact writeOps_isBus _ _ _ _ _ _ _ h
    · exact pollOps_isBus _ _ _ h
  case readWord =>
    rcases hj with (h | h) | h
    · rw [h]; exact decode_isBus _
    · exact nopOps_isBus _ _ h
    · rw [h]; exact decode_isBus _
  all_goals rw [hj]; rfl

/-! ### The operations of data-space accesses (R83, R84) -/

theorem memReadOp_window {c : Config} {addr : Nat} (h : c.InWindow addr) :
    memReadOp c addr = .ldFlash (BitVec.ofNat 10 (addr - c.flashMapBase)) := by
  rw [memReadOp, addrDecode, if_pos h, decode_pack]; rfl

theorem memWriteOp_window {c : Config} {addr : Nat} (h : c.InWindow addr) (v : Byte) :
    memWriteOp c addr v = .stFlash (BitVec.ofNat 10 (addr - c.flashMapBase)) v := by
  rw [memWriteOp, addrDecode, if_pos h, decode_pack]; rfl

theorem memReadOp_cmd {c : Config} (h : c.Valid) : memReadOp c c.cmdAddr = .rdCmd := by
  rw [memReadOp, addrDecode, if_neg h.cmdOutside, if_pos rfl, decode_pack]; rfl

theorem memWriteOp_cmd {c : Config} (h : c.Valid) (v : Byte) : memWriteOp c c.cmdAddr v = .wrCmd v := by
  rw [memWriteOp, addrDecode, if_neg h.cmdOutside, if_pos rfl, decode_pack]; rfl

theorem memReadOp_prot {c : Config} (h : c.Valid) : memReadOp c c.protAddr = .rdProt := by
  rw [memReadOp, addrDecode, if_neg h.protOutside, if_neg h.cmdNeProt.symm, if_pos rfl, decode_pack]; rfl

theorem memWriteOp_prot {c : Config} (h : c.Valid) (v : Byte) : memWriteOp c c.protAddr v = .wrProt v := by
  rw [memWriteOp, addrDecode, if_neg h.protOutside, if_neg h.cmdNeProt.symm, if_pos rfl, decode_pack]; rfl

theorem memReadOp_status {c : Config} (h : c.Valid) : memReadOp c c.statusAddr = .rdStatus := by
  rw [memReadOp, addrDecode, if_neg h.statusOutside, if_neg h.cmdNeStatus.symm, if_neg h.protNeStatus.symm,
    if_pos rfl, decode_pack]; rfl

theorem memWriteOp_status {c : Config} (h : c.Valid) (v : Byte) : memWriteOp c c.statusAddr v = .wrStatus v := by
  rw [memWriteOp, addrDecode, if_neg h.statusOutside, if_neg h.cmdNeStatus.symm, if_neg h.protNeStatus.symm,
    if_pos rfl, decode_pack]; rfl

/-- Every other address is a NOP for the block (R36, R61). -/
theorem memOp_elsewhere {c : Config} {addr : Nat} (hw : ¬ c.InWindow addr) (h1 : addr ≠ c.cmdAddr)
    (h2 : addr ≠ c.protAddr) (h3 : addr ≠ c.statusAddr) (v : Byte) :
    memReadOp c addr = .nop ∧ memWriteOp c addr v = .nop := by
  constructor
  · rw [memReadOp, addrDecode, if_neg hw, if_neg h1, if_neg h2, if_neg h3, decode_pack]; rfl
  · rw [memWriteOp, addrDecode, if_neg hw, if_neg h1, if_neg h2, if_neg h3, decode_pack]; rfl

end Sys2Proof.Machine
end

