-- ==== Sys2Proof/Laws/Driver.lean ====
section
/-! SUPPORT. Runs of no-op cycles phase by phase (R176 to R178, R198), a cycle beside the agenda, and the principle that a property kept by every bus cycle, by COMPLETE and by RESET is kept by every instruction. -/

namespace Sys2Proof.Machine

/-! ### Runs of no-op cycles -/

theorem nopOps_succ (n : Nat) (s : State) : runOps (nopOps (n + 1)) s = runOps (nopOps n) (nopCycle s) := rfl

/-- A no-op cycle without a fault: the aging of the phase, and a drawn answer. -/
theorem nopCycle_clean (s : State) (hf : s.fault = none) :
    nopCycle s = { aging true s with rdata := Config.freeByte s.draws, draws := s.draws + 1 } := by
  have h : (aging true s).fault = none := by simp [hf]
  simp [nopCycle, endCycle_clean _ h]

/-- In Idle and Busy no-op cycles change nothing but the drawn answer (R181). -/
theorem nops_still (n : Nat) : ∀ s : State, s.fault = none → s.phase = .idle ∨ s.phase = .busy →
    ∃ r, runOps (nopOps n) s = { s with rdata := r, draws := s.draws + n } := by
  induction n with
  | zero => exact fun s _ _ => ⟨s.rdata, rfl⟩
  | succ n ih =>
    intro s hf hp
    have h : nopCycle s = { s with rdata := Config.freeByte s.draws, draws := s.draws + 1 } := by
      rw [nopCycle_clean s hf]; rcases hp with hp | hp <;> simp [aging, hp]
    obtain ⟨r, hr⟩ := ih (nopCycle s) (by simp [h, hf]) (by simp [h, hp])
    refine ⟨r, ?_⟩
    rw [nopOps_succ, hr, h]; simp; omega

/-- No-op cycles within the command window age it (R176). -/
theorem nops_cmdLoaded (n : Nat) : ∀ s : State, s.fault = none → s.phase = .cmdLoaded →
    s.age + n < s.cfg.ceWindow →
    ∃ r, runOps (nopOps n) s = { s with age := s.age + n, rdata := r, draws := s.draws + n } := by
  induction n with
  | zero => exact fun s _ _ _ => ⟨s.rdata, rfl⟩
  | succ n ih =>
    intro s hf hp ha
    have h : nopCycle s = { s with age := s.age + 1, rdata := Config.freeByte s.draws, draws := s.draws + 1 } := by
      rw [nopCycle_clean s hf]; simp [aging, hp, ageCmdLoaded, show ¬ s.age + 1 = s.cfg.ceWindow by omega]
    obtain ⟨r, hr⟩ := ih (nopCycle s) (by simp [h, hf]) (by simp [h, hp]) (by simp [h]; omega)
    refine ⟨r, ?_⟩
    rw [nopOps_succ, hr, h]; simp; omega

/-- No-op cycles within the trigger window age it (R177). -/
theorem nops_armed (n : Nat) : ∀ s : State, s.fault = none → s.phase = .armed → n < s.ew →
    ∃ r, runOps (nopOps n) s = { s with ew := s.ew - n, rdata := r, draws := s.draws + n } := by
  induction n with
  | zero => exact fun s _ _ _ => ⟨s.rdata, rfl⟩
  | succ n ih =>
    intro s hf hp ha
    have h : nopCycle s = { s with ew := s.ew - 1, rdata := Config.freeByte s.draws, draws := s.draws + 1 } := by
      rw [nopCycle_clean s hf]; simp [aging, hp, ageArmed, show ¬ s.ew - 1 = 0 by omega]
    obtain ⟨r, hr⟩ := ih (nopCycle s) (by simp [h, hf]) (by simp [h, hp]) (by simp [h]; omega)
    refine ⟨r, ?_⟩
    rw [nopOps_succ, hr, h]; simp; omega

/-- The two owed no-op cycles start the flash operation (R178), more change nothing (R181). -/
theorem nops_triggered (n : Nat) (s : State) (hf : s.fault = none) (hp : s.phase = .triggered) (ht : s.tn = 2) :
    ∃ r, runOps (nopOps (2 + n)) s = { s with tn := 0, phase := .busy, rdata := r, draws := s.draws + (2 + n) } := by
  have h1 : nopCycle s = { s with tn := 1, rdata := Config.freeByte s.draws, draws := s.draws + 1 } := by
    rw [nopCycle_clean s hf]; simp [aging, hp, ageTriggered, ht]
  have h2 : nopCycle (nopCycle s) =
      { s with tn := 0, phase := .busy, rdata := Config.freeByte (s.draws + 1), draws := s.draws + 2 } := by
    rw [nopCycle_clean _ (by simp [h1, hf])]; simp [h1, aging, hp, ageTriggered]
  obtain ⟨r, hr⟩ := nops_still n (nopCycle (nopCycle s)) (by simp [h2, hf]) (by simp [h2])
  refine ⟨r, ?_⟩
  rw [show 2 + n = (n + 1) + 1 by omega, nopOps_succ, nopOps_succ, hr, h2]; simp; omega

/-! ### A cycle beside the agenda -/

/-- The state with another agenda. -/
def State.withAgenda (a : List Event) (s : State) : State := { s with agenda := a }

theorem endCycle_withAgenda (b : Option Byte) (a : List Event) (s : State) :
    endCycle b (s.withAgenda a) = (endCycle b s).withAgenda a := by
  obtain ⟨cfg, flash, cmd, phase, age, ew, lat, eff, tn, fault, refused, rdata, result, draws, agenda⟩ := s
  cases fault <;> rfl

theorem aging_withAgenda (n : Bool) (a : List Event) (s : State) :
    aging n (s.withAgenda a) = (aging n s).withAgenda a := by
  have h1 : ageCmdLoaded (s.withAgenda a) = (ageCmdLoaded s).withAgenda a := by
    by_cases h : s.age + 1 = s.cfg.ceWindow <;> simp [ageCmdLoaded, State.withAgenda, h]
  have h2 : ageArmed (s.withAgenda a) = (ageArmed s).withAgenda a := by
    by_cases h : s.ew - 1 = 0 <;> simp [ageArmed, State.withAgenda, h]
  have h3 : ageTriggered (s.withAgenda a) = (ageTriggered s).withAgenda a := by
    by_cases h : s.tn - 1 = 0 <;> simp [ageTriggered, State.withAgenda, h]
  unfold aging
  rw [show (s.withAgenda a).phase = s.phase from rfl]
  cases s.phase <;> cases n <;> simp only [h1, h2, h3, cond_true, cond_false]

theorem quietCycle_withAgenda (a : List Event) (s : State) :
    quietCycle (s.withAgenda a) = (quietCycle s).withAgenda a := by
  rw [quietCycle, aging_withAgenda, endCycle_withAgenda]; rfl

theorem refuseReserved_withAgenda (d : Byte) (a : List Event) (s : State) :
    refuseReserved d (s.withAgenda a) = (refuseReserved d s).withAgenda a := by
  simp only [refuseReserved, State.withAgenda]; cases legalCode s.cfg d <;> rfl

/-- A bus cycle neither reads nor writes the agenda. -/
theorem cycleOf_withAgenda {i : Instr} (hi : i.isBus = true) (a : List Event) (s : State) :
    cycleOf i (s.withAgenda a) = (cycleOf i s).withAgenda a := by
  have hm : ∀ r (u : State), markRefused r (u.withAgenda a) = (markRefused r u).withAgenda a := fun _ _ => rfl
  have hf : ∀ r (u : State), markFault r (u.withAgenda a) = (markFault r u).withAgenda a := fun _ _ => rfl
  have ht : ∀ e (u : State), trigger e (u.withAgenda a) = (trigger e u).withAgenda a := fun _ _ => rfl
  have hl : ∀ d (u : State), loadCommand d (u.withAgenda a) = (loadCommand d u).withAgenda a := fun _ _ => rfl
  have hc : ∀ u : State, armCommand (u.withAgenda a) = (armCommand u).withAgenda a := fun _ => rfl
  have p1 : (s.withAgenda a).phase = s.phase := rfl
  have p2 : (s.withAgenda a).cfg = s.cfg := rfl
  have p3 : (s.withAgenda a).cmd = s.cmd := rfl
  have p4 : (s.withAgenda a).lat = s.lat := rfl
  have p5 : (s.withAgenda a).status = s.status := rfl
  have p6 : ∀ o, (s.withAgenda a).flashByte o = s.flashByte o := fun _ => rfl
  cases i <;> simp only [Instr.isBus, Bool.false_eq_true] at hi <;>
    simp only [cycleOf, nopCycle, rdCmdCycle, rdProtCycle, wrStatusCycle, rsvdSelOddCycle, rsvdSelSixCycle,
      refusedCycle, wrCmdCycle, wrProtCycle, rdStatusCycle, ldFlashCycle, stFlashCycle, unarmedCycle,
      busyWriteCycle, interleavedCycle, hazardCycle, p1, p2, p5, p6]
  case nop => rw [aging_withAgenda, endCycle_withAgenda]
  case wrCmd d =>
    cases s.phase <;> cases legalCode s.cfg d <;> (try simp only [cond_true, cond_false]) <;>
      simp only [hm, hf, refuseReserved_withAgenda, hl, quietCycle_withAgenda, endCycle_withAgenda]
  case wrProt d =>
    cases s.phase <;> simp only [hm, hf, hc, quietCycle_withAgenda, endCycle_withAgenda]
    by_cases h : d = s.cfg.enableCode <;> simp [h]
  case stFlash off d =>
    cases s.phase <;> simp only [hf, quietCycle_withAgenda]
    unfold armedStoreCycle eraseStoreCycle
    rw [p2, p3]
    split
    · rw [ht, endCycle_withAgenda]
    split
    · unfold writeStoreCycle; rw [p4]
      split
      · exact quietCycle_withAgenda a { s with lat := some { off := off, byte := d } }
      · simp only [ht, endCycle_withAgenda]
      · simp only [hf, quietCycle_withAgenda]
    · rw [hm, quietCycle_withAgenda]
  all_goals (cases s.phase <;> simp only [hm, hf, quietCycle_withAgenda, endCycle_withAgenda])

/-! ### What every bus cycle and every other step keeps -/

/-- A property that every bus cycle keeps is kept by a sequence of them. -/
theorem runOps_induct {P : State → Prop} (hb : ∀ s i, i.isBus = true → P s → P (cycleOf i s)) :
    ∀ is : List Instr, (∀ i ∈ is, i.isBus = true) → ∀ s, P s → P (runOps is s) := by
  intro is
  induction is with
  | nil => exact fun _ _ h => h
  | cons i is ih => exact fun h s hs => ih (fun j hj => h j (by simp [hj])) _ (hb _ _ (h i (by simp)) hs)

/-- The same for the busy-wait loop, with COMPLETE. -/
theorem pollLoop_induct {P : State → Prop} (hb : ∀ s i, i.isBus = true → P s → P (cycleOf i s))
    (hc : ∀ s, s.canComplete = true → P s → P (completeStep s)) :
    ∀ polls last s, P s → P (pollLoop polls last s) := by
  intro polls
  induction polls with
  | nil =>
    intro last s hs
    have h1 : P (completeIfBusy s) := by
      unfold completeIfBusy
      cases h : s.canComplete
      · exact hs
      · exact hc s h hs
    have h2 := hb _ .rdStatus rfl h1
    simp only [pollLoop]
    cases (completeIfBusy s).answersPoll
    · exact h2
    · exact runOps_induct hb _ (nopOps_isBus _) _ h2
  | cons g rest ih =>
    intro last s hs
    have h2 := hb _ .rdStatus rfl hs
    simp only [pollLoop]
    cases s.answersPoll
    · exact h2
    · cases (rdStatusCycle s).readsBusy
      · exact runOps_induct hb _ (nopOps_isBus _) _ h2
      · exact ih _ _ (runOps_induct hb _ (nopOps_isBus _) _ h2)

/-- A property that every bus cycle, COMPLETE, RESET, a change of software's result and a refusal mark keep is
kept by every instruction. -/
theorem exec_induct {P : State → Prop} (hb : ∀ s i, i.isBus = true → P s → P (cycleOf i s))
    (hc : ∀ s, s.canComplete = true → P s → P (completeStep s)) (hr : ∀ s, P s → P (resetStep s))
    (hres : ∀ s v, P s → P { s with result := v }) (hm : ∀ s r, P s → P (markRefused r s)) :
    ∀ s t i, P s → exec i s = .next t → P t := by
  have hdom : ∀ b u s, P u → P s → P (inDomain b u s) := by
    intro b u s h1 h2
    cases b
    · exact hm _ _ h2
    · exact h1
  intro s t i hs h
  by_cases hi : i.isBus = true
  · rw [exec_bus hi, Host.Outcome.next.injEq] at h
    exact h ▸ hb _ _ hi hs
  cases i <;> simp only [Instr.isBus, not_true_eq_false] at hi
  case complete =>
    simp only [exec, execComplete] at h
    cases hcc : s.canComplete <;> rw [hcc] at h <;> simp at h
    exact h ▸ hc _ hcc hs
  all_goals
    simp only [exec, execPageErase, execWordWrite, execCmdReserved, execEnable, execBusy, execReset, execReadByte,
      execWriteByte, execWaitNotBusy, execErasePage, execWriteWord, execReadWord, Host.Outcome.next.injEq] at h
    subst h
  case pageErase => exact hb _ (.wrCmd _) rfl hs
  case wordWrite => exact hb _ (.wrCmd _) rfl hs
  case cmdReserved => exact hb _ (.wrCmd _) rfl hs
  case enable => exact hb _ (.wrProt _) rfl hs
  case busy => exact hres _ _ (hb _ .rdStatus rfl hs)
  case reset => exact hr _ hs
  case readByte => exact hdom _ _ _ (hb _ _ (decode_isBus _) hs) hs
  case writeByte => exact hdom _ _ _ (hb _ _ (decode_isBus _) hs) hs
  case waitNotBusy => exact pollLoop_induct hb hc _ _ _ hs
  case erasePage =>
    exact hdom _ _ _ (pollLoop_induct hb hc _ _ _ (runOps_induct hb _ (eraseOps_isBus _ _ _ _ _ _) _ hs)) hs
  case writeWord =>
    exact hdom _ _ _ (pollLoop_induct hb hc _ _ _ (runOps_induct hb _ (writeOps_isBus _ _ _ _ _ _) _ hs)) hs
  case readWord =>
    exact hdom _ _ _ (hres _ _ (hb _ _ (decode_isBus _) (runOps_induct hb _ (nopOps_isBus _) _
      (hb _ _ (decode_isBus _) hs)))) hs

end Sys2Proof.Machine
end

