-- ==== Sys2Proof/Laws/PerInstr.lean ====
section
/-! SUPPORT. The statement made for every instruction, one lemma per constructor: its transaction words decode to its expansion (R81, R93). -/

namespace Sys2Proof.Laws.Encoding

open Sys2Proof.Machine

/-- The words the encoder gives an instruction decode to the bus operations it stands for. -/
def Statement (i : Instr) : Prop := ∀ c : Config, (encode c i).map decode = expansion c i

/-- The one argument, for any instruction. -/
theorem holds (i : Instr) : Statement i := fun c => decode_words (expansion_isBus c i)

theorem nop : Statement .nop := holds _
theorem rdCmd : Statement .rdCmd := holds _
theorem wrCmd (data : Byte) : Statement (.wrCmd data) := holds _
theorem rdProt : Statement .rdProt := holds _
theorem wrProt (data : Byte) : Statement (.wrProt data) := holds _
theorem rdStatus : Statement .rdStatus := holds _
theorem wrStatus (data : Byte) : Statement (.wrStatus data) := holds _
theorem ldFlash (off : Offset) : Statement (.ldFlash off) := holds _
theorem stFlash (off : Offset) (data : Byte) : Statement (.stFlash off data) := holds _
theorem rsvdSelOdd (mid : BitVec 1) : Statement (.rsvdSelOdd mid) := holds _
theorem rsvdSelSix : Statement .rsvdSelSix := holds _
theorem pageErase : Statement .pageErase := holds _
theorem wordWrite : Statement .wordWrite := holds _
theorem cmdReserved (code : Byte) : Statement (.cmdReserved code) := holds _
theorem enable : Statement .enable := holds _
theorem busy : Statement .busy := holds _
theorem complete : Statement .complete := holds _
theorem reset : Statement .reset := holds _
theorem readByte (addr : Nat) : Statement (.readByte addr) := holds _
theorem writeByte (addr : Nat) (value : Byte) : Statement (.writeByte addr value) := holds _
theorem waitNotBusy (polls : List Nat) (last : Nat) : Statement (.waitNotBusy polls last) := holds _
theorem erasePage (addr : Nat) (dummy : Byte) (g1 g2 more : Nat) (polls : List Nat) (last : Nat) :
    Statement (.erasePage addr dummy g1 g2 more polls last) := holds _
theorem writeWord (addr : Nat) (word : FlashWord) (g1 g2 g3 : Nat) (polls : List Nat) (last : Nat) :
    Statement (.writeWord addr word g1 g2 g3 polls last) := holds _
theorem readWord (addr gap : Nat) : Statement (.readWord addr gap) := holds _

end Sys2Proof.Laws.Encoding
end

