-- ==== Sys2Proof/Tests/Slice0.lean ====
section
/-! SUPPORT. Tests: expected values are those of spec/95_test_vectors.md (its ids are cited) or of the rule cited; each is about one step, one word or one operand check. The witnesses at the end meet the hypotheses of the statements. -/

namespace Sys2Proof.Tests

open Sys2Proof.Machine

/-! ### States to start from (spec/95 section 2: TC0, F[504] = 0xABCD, F[505] = 0x0F0F, the rest 0xFFFF) -/

def flash0 : Memory := Memory.setWord (Memory.setWord [] 504 0xABCD#16) 505 0x0F0F#16

def idleS : State := { State.reset with flash := flash0 }

/-- After `WR_CMD d`. -/
def loadedS (d : Byte) : State := { idleS with phase := .cmdLoaded, cmd := d }

/-- After `WR_CMD d; WR_PROT 0xE7`. -/
def armedS (d : Byte) : State := { loadedS d with phase := .armed, ew := 4 }

/-- After the first store of a word write, `ST_FLASH 0x3F0, 0x34` (WW1). -/
def latchedS : State := { armedS 0x1D#8 with ew := 3, lat := some { off := 0x3F0#10, byte := 0x34#8 } }

def triggeredS (e : Effect) : State := { loadedS 0x18#8 with phase := .triggered, tn := 2, eff := e }

def busyS (e : Effect) : State := { loadedS 0x18#8 with phase := .busy, eff := e }

def faultedS : State := { idleS with fault := some .malformedWrite }

/-- What a test looks at in the next state, if there is one. -/
def after {α : Type} (f : State → α) : Host.Outcome State Fault Refusal → Option α
  | .next t => some (f t)
  | .fault _ => none
  | .refused _ => none

/-! ### Well-formed and ill-formed operands -/

theorem test_wf_reserved_code : (Instr.cmdReserved 0x00#8).wellFormed Config.tc0 = true := by decide
theorem test_illformed_reserved_code_erase : (Instr.cmdReserved 0x18#8).wellFormed Config.tc0 = false := by decide
theorem test_illformed_reserved_code_write : (Instr.cmdReserved 0x1D#8).wellFormed Config.tc0 = false := by decide
theorem test_illformed_read_byte : (Instr.readByte 0x10000).wellFormed Config.tc0 = false := by decide
theorem test_illformed_write_byte : (Instr.writeByte 0x10000 0#8).wellFormed Config.tc0 = false := by decide
theorem test_illformed_erase_below :
    (Instr.erasePage 0x3FFF 0#8 0 0 0 [] 0).wellFormed Config.tc0 = false := by decide
theorem test_illformed_write_above :
    (Instr.writeWord 0x4400 0#16 0 0 0 [] 0).wellFormed Config.tc0 = false := by decide
theorem test_illformed_read_above : (Instr.readWord 0x4400 0).wellFormed Config.tc0 = false := by decide
theorem test_wf_last_byte : (Instr.readByte 0xFFFF).wellFormed Config.tc0 = true ∧
    (Instr.erasePage 0x43FF 0#8 0 0 0 [] 0).wellFormed Config.tc0 = true := by decide

/-! ### Decoding: words written out bit by bit as rw, sel, off, data (R80, R81; E1 to E14) -/

theorem test_decode_nop : decode 0b0_000_0000000000_00000000#22 = .nop ∧
    decode 0b1_000_0000000000_00000000#22 = .nop ∧ decode 0b0_000_1111111111_11111111#22 = .nop := by decide
theorem test_decode_rdCmd : decode 0b0_001_0000000000_00000000#22 = .rdCmd := by decide
theorem test_decode_wrCmd : decode 0b1_001_0000000000_00011000#22 = .wrCmd 0x18#8 ∧
    decode 0b1_001_1111111111_00011000#22 = .wrCmd 0x18#8 := by decide
theorem test_decode_rdProt : decode 0b0_010_0000000000_00000000#22 = .rdProt := by decide
theorem test_decode_wrProt : decode 0b1_010_0000000000_11100111#22 = .wrProt 0xE7#8 := by decide
theorem test_decode_rdStatus : decode 0b0_011_0000000000_00000000#22 = .rdStatus ∧
    decode 0b0_011_1111111111_11111111#22 = .rdStatus := by decide
theorem test_decode_wrStatus : decode 0b1_011_0000000000_10000000#22 = .wrStatus 0x80#8 := by decide
theorem test_decode_ldFlash : decode 0b0_100_1111110001_00000000#22 = .ldFlash 0x3F1#10 ∧
    decode 0b0_100_1111110001_10101010#22 = .ldFlash 0x3F1#10 := by decide
theorem test_decode_stFlash : decode 0b1_100_1111110001_00000000#22 = .stFlash 0x3F1#10 0x00#8 ∧
    decode 0b1_100_1111111111_11111111#22 = .stFlash 0x3FF#10 0xFF#8 := by decide
theorem test_decode_rsvdSelOdd : decode 0b0_101_0000000000_00000000#22 = .rsvdSelOdd 0#1 ∧
    decode 0b1_101_0000000000_00000000#22 = .rsvdSelOdd 0#1 ∧
    decode 0b0_111_0000000000_00000000#22 = .rsvdSelOdd 1#1 ∧
    decode 0b1_111_0000000000_00000000#22 = .rsvdSelOdd 1#1 := by decide
theorem test_decode_rsvdSelSix : decode 0b0_110_0000000000_00000000#22 = .rsvdSelSix ∧
    decode 0b1_110_0000000000_00000000#22 = .rsvdSelSix := by decide
/-- R87 to R89, with the codes of TC0. -/
theorem test_decode_codes : decodeCmdCode Config.tc0 0b00011000#8 = .pageErase ∧
    decodeCmdCode Config.tc0 0b00011101#8 = .wordWrite ∧
    decodeCmdCode Config.tc0 0b11111111#8 = .cmdReserved 0xFF#8 ∧
    decodeProtCode Config.tc0 0b11100111#8 = some .enable ∧ decodeProtCode Config.tc0 0b00000000#8 = none ∧
    decodeStatusByte Config.tc0 0b10000000#8 = true ∧ decodeStatusByte Config.tc0 0b01111111#8 = false := by decide
theorem test_decode_rejects_wide : decodeNat 0x400000 = .error .beyondWord ∧ decodeTableWord 24 0x400000 = none := by
  decide
theorem test_table_words : decodeTableWord 24 0x33F100 = some (.stFlash 0x3F1#10 0x00#8) ∧
    decodeTableWord 8 0x18 = some .pageErase ∧ decodeTableWord 8 0xE7 = some .enable ∧
    decodeTableWord 8 0x00 = some (.cmdReserved 0x00#8) := by decide

/-! ### Encoding: the common transaction words of spec/95 section 0, and the steps, which have none (R92) -/

theorem test_encode_bus : encode Config.tc0 .nop = [0x000000#22] ∧ encode Config.tc0 .rdCmd = [0x040000#22] ∧
    encode Config.tc0 (.wrCmd 0x18#8) = [0x240018#22] ∧ encode Config.tc0 .rdProt = [0x080000#22] ∧
    encode Config.tc0 (.wrProt 0xE7#8) = [0x2800E7#22] ∧ encode Config.tc0 .rdStatus = [0x0C0000#22] ∧
    encode Config.tc0 (.wrStatus 0x80#8) = [0x2C0080#22] ∧
    encode Config.tc0 (.ldFlash 0x3F0#10) = [0x13F000#22] ∧
    encode Config.tc0 (.stFlash 0x3F1#10 0xF0#8) = [0x33F1F0#22] := by decide
theorem test_encode_reserved : encode Config.tc0 (.rsvdSelOdd 0#1) = [0x140000#22] ∧
    encode Config.tc0 (.rsvdSelOdd 1#1) = [0x1C0000#22] ∧ encode Config.tc0 .rsvdSelSix = [0x180000#22] := by decide
theorem test_encode_codes : encode Config.tc0 .pageErase = [0x240018#22] ∧
    encode Config.tc0 .wordWrite = [0x24001D#22] ∧ encode Config.tc0 (.cmdReserved 0x00#8) = [0x240000#22] ∧
    encode Config.tc0 .enable = [0x2800E7#22] ∧ encode Config.tc0 .busy = [0x0C0000#22] := by decide
theorem test_encode_steps : encode Config.tc0 .complete = [] ∧ encode Config.tc0 .reset = [] := by decide
/-- A1 to A11: the operations that the address decoder chooses. -/
theorem test_encode_byte_accesses : encode Config.tc0 (.writeByte 0x0033 0x18#8) = [0x240018#22] ∧
    encode Config.tc0 (.writeByte 0x003C 0xE7#8) = [0x2800E7#22] ∧
    encode Config.tc0 (.readByte 0x0032) = [0x0C0000#22] ∧
    encode Config.tc0 (.writeByte 0x43F1 0x00#8) = [0x33F100#22] ∧
    encode Config.tc0 (.readByte 0x4000) = [0x100000#22] ∧ encode Config.tc0 (.readByte 0x43FF) = [0x13FF00#22] ∧
    encode Config.tc0 (.readByte 0x0033) = [0x040000#22] ∧
    encode Config.tc0 (.writeByte 0x0032 0x00#8) = [0x2C0000#22] ∧
    addrDecode Config.tc0 true 0x0100 0x55#8 = 0x200055#22 := by decide
theorem test_decode_beside_window : memReadOp Config.tc0 0x3FFF = .nop ∧ memReadOp Config.tc0 0x4400 = .nop := by
  decide
/-- The expansions of R185, R186, R188 and R190, with gaps. -/
theorem test_encode_erase : encode Config.tc0 (.erasePage 0x43F1 0x00#8 1 0 0 [] 0) =
    [0x240018#22, 0x000000#22, 0x2800E7#22, 0x33F100#22, 0x000000#22, 0x000000#22, 0x0C0000#22] := by decide
theorem test_encode_write : encode Config.tc0 (.writeWord 0x43F0 0x3C11#16 0 0 1 [] 0) =
    [0x24001D#22, 0x2800E7#22, 0x33F011#22, 0x000000#22, 0x33F13C#22, 0x000000#22, 0x000000#22, 0x0C0000#22] := by
  decide
theorem test_encode_read : encode Config.tc0 (.readWord 0x4002 1) = [0x100200#22, 0x000000#22, 0x100300#22] := by
  decide
theorem test_encode_wait : encode Config.tc0 (.waitNotBusy [1, 0] 0) =
    [0x0C0000#22, 0x000000#22, 0x0C0000#22, 0x0C0000#22] := by decide

/-! ### The address translator (TR1 to TR16) -/

theorem test_offset_fields : (paddr 0x3F3#10, waddr 0x3F3#10, bsel 0x3F3#10, wordIndex 0x3F3#10) = (63, 1, true, 505) ∧
    (paddr 0x057#10, waddr 0x057#10, bsel 0x057#10, wordIndex 0x057#10) = (5, 3, true, 43) ∧
    (paddr 0x00F#10, waddr 0x00F#10, bsel 0x00F#10, wordIndex 0x00F#10) = (0, 7, true, 7) := by decide
theorem test_absAddr : absAddr Config.tc0 63 7 1 = .ok 0x43FF ∧ absAddr Config.tc0 5 3 1 = .ok 0x4057 ∧
    absAddr Config.tc0 64 0 0 = .error .translatorDomain ∧ absAddr Config.tc0 0 8 0 = .error .translatorDomain ∧
    absAddr Config.tc0 0 0 2 = .error .translatorDomain := by decide
theorem test_block : blockBase Config.tc0 = 0x43F0 ∧ pageBase Config.tc0 62 = .ok 0x43E0 ∧
    blockAddress Config.tc0 15 = .ok 0x43FF ∧ blockAddress Config.tc0 16 = .error .translatorDomain := by decide
theorem test_flashOffset : flashOffset Config.tc0 0x3FFF = .error .translatorDomain ∧
    flashOffset Config.tc0 0x43FF = .ok 0x3FF#10 ∧
    flashOffset Config.tc0 0x4400 = .error .translatorDomain := by decide
theorem test_other_base : blockBase { Config.tc0 with flashMapBase := 0x0400 } = 0x07F0 := by decide

/-! ### The flash as a list -/

theorem test_flash_list : flash0 = [(1008, 0xCD#8), (1009, 0xAB#8), (1010, 0x0F#8), (1011, 0x0F#8)] := by decide
theorem test_flash_erased_entry_goes : Memory.set flash0 1009 0xFF#8 = [(1008, 0xCD#8), (1010, 0x0F#8), (1011, 0x0F#8)] := by
  decide
theorem test_flash_wf : Memory.wf flash0 = true ∧ Memory.wf [(5, 0xFF#8)] = false ∧
    Memory.wf [(5, 0#8), (5, 1#8)] = false ∧ Memory.wf [(1024, 0#8)] = false := by decide

/-! ### One step of each instruction -/

/-- R178. -/
theorem test_nop_triggered : after (fun t => (t.phase, t.tn)) (exec .nop (triggeredS (.erasePage 63))) =
    some (.triggered, 1) := by decide
/-- IS2: the fourth no-op cycle disarms the command. -/
theorem test_nop_disarms : after (fun t => (t.phase, t.cmd, t.fault, t.refused))
    (exec .nop { loadedS 0x18#8 with age := 3 }) = some (.idle, 0x18#8, none, none) := by decide
/-- RI26. -/
theorem test_rdCmd : after (fun t => (t.phase, t.fault, t.refused)) (exec .rdCmd idleS) =
    some (.idle, none, some .unreadableRegister) := by decide
/-- RI21. -/
theorem test_rdCmd_triggered : after (fun t => (t.phase, t.fault, t.refused)) (exec .rdCmd (triggeredS .noEffect)) =
    some (.triggered, some .hazardViolation, some .unreadableRegister) := by decide
/-- RI2. -/
theorem test_wrCmd_loads : after (fun t => (t.phase, t.cmd, t.age)) (exec (.wrCmd 0x1D#8) idleS) =
    some (.cmdLoaded, 0x1D#8, 0) := by decide
/-- RI25. -/
theorem test_wrCmd_busy : after (fun t => (t.phase, t.fault, t.refused)) (exec (.wrCmd 0x00#8) (busyS .noEffect)) =
    some (.busy, some .busyViolation, some .reservedCommand) := by decide
/-- RI26. -/
theorem test_rdProt : after (fun t => (t.phase, t.refused)) (exec .rdProt idleS) =
    some (.idle, some .unreadableRegister) := by decide
/-- RI5. -/
theorem test_wrProt_arms : after (fun t => (t.phase, t.ew, t.cmd)) (exec (.wrProt 0xE7#8) (loadedS 0x18#8)) =
    some (.armed, 4, 0x18#8) := by decide
/-- RI14: the window is not reopened. -/
theorem test_wrProt_armed : after (fun t => (t.phase, t.ew, t.refused)) (exec (.wrProt 0xE7#8) (armedS 0x18#8)) =
    some (.armed, 3, some .interleaved) := by decide
/-- RI13. -/
theorem test_rdStatus_armed : after (fun t => (t.phase, t.ew, t.refused)) (exec .rdStatus (armedS 0x18#8)) =
    some (.armed, 3, some .interleaved) := by decide
/-- R111, R177: the latch stays while the window is open. -/
theorem test_rdStatus_latched : after (fun t => (t.phase, t.ew, t.lat)) (exec .rdStatus latchedS) =
    some (.armed, 2, some { off := 0x3F0#10, byte := 0x34#8 }) := by decide
/-- RI9, RI10, for every drawn byte. -/
theorem test_status_bit (drawn : Byte) : (statusByte 7 false drawn).getLsbD 7 = false ∧
    (statusByte 7 true drawn).getLsbD 7 = true := by simp [statusByte]
/-- RI27. -/
theorem test_wrStatus : after (fun t => (t.phase, t.refused)) (exec (.wrStatus 0x80#8) (busyS .noEffect)) =
    some (.busy, some .unwritableRegister) := by decide
/-- FA1, FA2 with F[504] = 0xABCD. -/
theorem test_ldFlash : after (·.rdata) (exec (.ldFlash 0x3F0#10) idleS) = some 0xCD#8 ∧
    after (·.rdata) (exec (.ldFlash 0x3F1#10) idleS) = some 0xAB#8 := by decide
/-- PE10. -/
theorem test_stFlash_erase : after (fun t => (t.phase, t.tn, t.eff)) (exec (.stFlash 0x057#10 0#8) (armedS 0x18#8)) =
    some (.triggered, 2, .erasePage 5) := by decide
/-- WW2. -/
theorem test_stFlash_second : after (fun t => (t.phase, t.tn, t.eff, t.lat)) (exec (.stFlash 0x3F1#10 0x12#8) latchedS) =
    some (.triggered, 2, .writeWord 504 0x1234#16, none) := by decide
/-- RI28. -/
theorem test_rsvdSelOdd : after (fun t => (t.phase, t.refused)) (exec (.rsvdSelOdd 1#1) idleS) =
    some (.idle, some .reservedSelect) := by decide
theorem test_rsvdSelSix : after (fun t => (t.phase, t.refused)) (exec .rsvdSelSix (busyS .noEffect)) =
    some (.busy, some .reservedSelect) := by decide
/-- RI1. -/
theorem test_pageErase : after (fun t => (t.phase, t.cmd)) (exec .pageErase idleS) = some (.cmdLoaded, 0x18#8) := by
  decide
theorem test_wordWrite : after (fun t => (t.phase, t.cmd)) (exec .wordWrite idleS) = some (.cmdLoaded, 0x1D#8) := by
  decide
/-- RI4. -/
theorem test_cmdReserved : after (fun t => (t.phase, t.refused)) (exec (.cmdReserved 0xFF#8) idleS) =
    some (.idle, some .reservedCommand) := by decide
/-- RI5. -/
theorem test_enable : after (fun t => (t.phase, t.ew)) (exec .enable (loadedS 0x1D#8)) = some (.armed, 4) := by decide
/-- RI18. -/
theorem test_busy_triggered : after (fun t => (t.phase, t.fault)) (exec .busy (triggeredS .noEffect)) =
    some (.triggered, some .hazardViolation) := by decide
/-- PE1: the page of word 504 is all ones, and its entries are gone from the list. -/
theorem test_complete_erase : after (fun t => (t.phase, t.eff, t.flash)) (exec .complete (busyS (.erasePage 63))) =
    some (.idle, .noEffect, []) := by decide
/-- WW4. -/
theorem test_complete_write : after (fun t => t.flashWord 504)
    (exec .complete (busyS (.writeWord 504 0x1234#16))) = some 0x0204#16 := by decide
/-- RS4. -/
theorem test_reset_armed : after (fun t => (t.phase, t.lat, t.fault)) (exec .reset latchedS) = some (.idle, none, none) ∧
    after (·.flash) (exec .reset latchedS) = some flash0 := by decide
/-- RS6. -/
theorem test_reset_busy : after (fun t => (t.phase, t.fault)) (exec .reset (busyS (.erasePage 63))) =
    some (.idle, some .interrupted) := by decide
/-- A5. -/
theorem test_readByte : after (·.rdata) (exec (.readByte 0x43F0) idleS) = some 0xCD#8 := by decide
/-- A8: below the window nothing is addressed. -/
theorem test_readByte_outside : after (fun t => (t.phase, t.fault, t.refused)) (exec (.readByte 0x3FFF) idleS) =
    some (.idle, none, none) := by decide
/-- A1. -/
theorem test_writeByte : after (fun t => (t.phase, t.cmd)) (exec (.writeByte 0x0033 0x18#8) idleS) =
    some (.cmdLoaded, 0x18#8) := by decide
/-- R192: "On its own, into the window, it is the fault". -/
theorem test_writeByte_window : after (·.fault) (exec (.writeByte 0x43F0 0xFF#8) idleS) =
    some (some .unarmedFlashStore) := by decide
/-- IS10. -/
theorem test_waitNotBusy : after (fun t => (t.phase, t.eff, t.flashWord 504))
    (exec (.waitNotBusy [] 3) (busyS (.writeWord 504 0x0000#16))) = some (.idle, .noEffect, 0x0000#16) := by decide
/-- DS2: both windows used to the last cycle. -/
theorem test_erasePage : after (fun t => (t.phase, t.fault, t.flash))
    (exec (.erasePage 0x43F1 0x00#8 3 3 0 [] 0) idleS) = some (.idle, none, []) := by decide
/-- DS3: g2 = 4. -/
theorem test_erasePage_late : after (·.fault) (exec (.erasePage 0x43F1 0x00#8 0 4 0 [] 0) idleS) =
    some (some .unarmedFlashStore) := by decide
/-- DS5: stores at u+2 and u+4; 0xABCD AND 0x1111 = 0x0101. -/
theorem test_writeWord : after (fun t => (t.fault, t.flashWord 504, t.flashWord 505))
    (exec (.writeWord 0x43F0 0x1111#16 0 1 1 [] 0) idleS) = some (none, 0x0101#16, 0x0F0F#16) := by decide
/-- DS6: the window closes between the stores. -/
theorem test_writeWord_late : after (·.fault) (exec (.writeWord 0x43F0 0x1111#16 0 2 1 [] 0) idleS) =
    some (some .unarmedFlashStore) := by decide
/-- R190. -/
theorem test_readWord : after (·.result) (exec (.readWord 0x43F0 2) idleS) = some 0xABCD#16 := by decide
/-- R167, log 16. -/
theorem test_readWord_outside : after (·.refused) (exec (.readWord 0x4400 0) idleS) =
    some (some .translatorDomain) := by decide
/-- R110: the first reason stays. -/
theorem test_first_reason : after (·.fault) (exec (.stFlash 0#10 0#8) faultedS) = some (some .malformedWrite) := by
  decide
/-- A presented word runs as the very next step. -/
theorem test_step_presented : after (fun t => (t.phase, t.cmd)) (step (State.reset.withFetchWord 24 0x240018)) =
    some (.cmdLoaded, 0x18#8) := by decide

/-! ### Witnesses: the hypotheses of every statement can be met -/

theorem tc0_valid : Config.tc0.Valid := by constructor <;> decide

theorem valid_narrow : ({ Config.tc0 with ceWindow := 1, flashMapBase := 0xFC00 } : Config).Valid := by
  constructor <;> decide

theorem armedS_inv : (armedS 0x1D#8).Inv := by
  constructor <;> first | exact tc0_valid | (intro l h; cases h) | decide

theorem latchedS_inv : latchedS.Inv := by
  constructor <;> first | exact tc0_valid | (intro l h; cases h; decide) | decide

theorem busyS_inv : (busyS (.erasePage 63)).Inv := by
  constructor <;> first | exact tc0_valid | (intro l h; cases h) | decide

theorem witness_EncodedInstructionsDecodeBack : Config.tc0.Valid ∧
    (Instr.stFlash 0x3FF#10 0xFF#8).wellFormed Config.tc0 = true ∧ (Instr.stFlash 0x3FF#10 0xFF#8).isBus = true ∧
    (Instr.cmdReserved 0xFF#8).wellFormed Config.tc0 = true ∧ Instr.pageErase.wellFormed Config.tc0 = true ∧
    Instr.wordWrite.wellFormed Config.tc0 = true ∧ Instr.enable.wellFormed Config.tc0 = true :=
  ⟨tc0_valid, by decide⟩

theorem witness_IgnoredBitsNeverMatter :
    (selOf 0x240018#22 = selOf 0x27FF18#22 ∧ rwOf 0x240018#22 = rwOf 0x27FF18#22 ∧
      selOf 0x240018#22 = 0b001#3 ∧ rwOf 0x240018#22 = true ∧ dataOf 0x240018#22 = dataOf 0x27FF18#22) ∧
    (selOf 0x000000#22 = selOf 0x23FFFF#22 ∧ selOf 0x000000#22 = 0b000#3) ∧
    (selOf 0x0C0000#22 = selOf 0x0FFFFF#22 ∧ selOf 0x0C0000#22 = 0b011#3 ∧ rwOf 0x0C0000#22 = false) ∧
    (selOf 0x13F100#22 = selOf 0x13F1AA#22 ∧ selOf 0x13F100#22 = 0b100#3 ∧ offOf 0x13F100#22 = offOf 0x13F1AA#22) ∧
    encodeOp (.wrCmd 0x18#8) = some 0x240018#22 ∧ encodeOp (.wrProt 0xE7#8) = some 0x2800E7#22 := by decide

/-- Every case of the decoder, at the bounds of the window. -/
theorem witness_AddressDecoderSelects : Config.tc0.Valid ∧ Config.tc0.InWindow 0x4000 ∧ Config.tc0.InWindow 0x43FF ∧
    ¬ Config.tc0.InWindow 0x3FFF ∧ ¬ Config.tc0.InWindow 0x4400 ∧ 0x4400 ≠ Config.tc0.cmdAddr ∧
    0x4400 ≠ Config.tc0.protAddr ∧ 0x4400 ≠ Config.tc0.statusAddr := ⟨tc0_valid, by decide⟩

theorem witness_TranslatorRoundTrips : (63 ≤ 63 ∧ 7 ≤ 7 ∧ 1 ≤ 1) ∧ Config.tc0.InWindow 0x43FF ∧ 15 ≤ 15 := by decide

theorem witness_TranslatorFormulas : 63 ≤ 63 ∧ 7 ≤ 7 ∧ 1 ≤ 1 ∧ Config.tc0.InWindow 0x43FF ∧ 15 ≤ 15 ∧ 63 < 64 ∧ 7 < 8 ∧ 1 < 2 ∧ 15 < 16 ∧
    ¬ Config.tc0.InWindow 0x4400 := by decide

theorem witness_OddAddressIsHighByte : Config.tc0.Valid ∧ Config.tc0.InWindow 0x43FF ∧ 0x43FF % 2 = 1 :=
  ⟨tc0_valid, by decide⟩

theorem witness_PowerOnMeetsInvariant : Config.tc0.Valid ∧ Memory.wf flash0 = true := ⟨tc0_valid, by decide⟩

theorem witness_EveryStepKeepsInvariant : latchedS.Inv ∧ ∃ t, step latchedS = .next t := ⟨latchedS_inv, _, rfl⟩

theorem witness_ResetClearsSequencer : (triggeredS .noEffect).phase = .triggered ∧ latchedS.phase = .armed ∧
    latchedS.fault = none := by decide

theorem witness_FlashPersistsAcrossReset : idleS.cfg.Valid ∧ idleS.fault = none ∧ idleS.phase = .idle ∧
    idleS.cfg.InWindow 0x43FE ∧ 0x43FE % 2 = 0 := ⟨tc0_valid, by decide⟩

/-- For the statements about one cycle in Idle or in Busy: NopInIdleAndBusyChangesNothing, WrCmdLoadsLegalCode,
WrProtInIdleHasNoEffect, RdStatusShowsBusy, CommandCodesAreWrCmdData, BusyFieldRead, LdFlashReturnsByte,
LdFlashInBusyIsDrawn. -/
theorem witness_one_cycle_idle_busy : (idleS.fault = none ∧ idleS.phase = .idle ∧ 0x18#8 = idleS.cfg.pageEraseCode ∧
      (Instr.cmdReserved 0x00#8).wellFormed idleS.cfg = true) ∧
    ((busyS .noEffect).fault = none ∧ (busyS .noEffect).phase = .busy) := by decide

theorem witness_CommandWindowAges : Instr.rdStatus.isBus = true ∧ (loadedS 0x18#8).phase = .cmdLoaded ∧
    Instr.rdStatus ≠ .wrProt (loadedS 0x18#8).cfg.enableCode ∧
    { loadedS 0x18#8 with age := 3 }.age + 1 = (loadedS 0x18#8).cfg.ceWindow := by decide

/-- With the enable write just in time, and one cycle late. -/
theorem witness_EnableAcceptedWithinBound : (loadedS 0x18#8).cfg.Valid ∧ (loadedS 0x18#8).fault = none ∧
    (loadedS 0x18#8).phase = .cmdLoaded ∧ (loadedS 0x18#8).age = 0 ∧ 3 < (loadedS 0x18#8).cfg.ceWindow ∧
    (loadedS 0x18#8).cfg.ceWindow ≤ 4 := ⟨tc0_valid, by decide⟩

/-- The window closing, and the window open by one cycle more with a latch to keep. -/
theorem witness_TriggerWindowAges : Instr.nop.isBus = true ∧ (armedS 0x18#8).phase = .armed ∧
    { armedS 0x18#8 with ew := 1 }.ew - 1 = 0 ∧ { latchedS with ew := 2 }.phase = .armed ∧
    { latchedS with ew := 2 }.ew - 1 ≠ 0 ∧ { latchedS with ew := 2 }.lat ≠ none ∧
    ∀ off d, Instr.rdStatus = .stFlash off d →
      latchedS.cmd ≠ latchedS.cfg.wordWriteCode ∨ latchedS.lat ≠ none ∨ bsel off = true :=
  ⟨rfl, by decide, by decide, by decide, by decide, by decide, fun _ _ h => (by cases h)⟩

theorem witness_TriggerAcceptedForFourCycles : (armedS 0x18#8).fault = none ∧ (armedS 0x18#8).phase = .armed ∧
    (armedS 0x18#8).ew = 4 ∧ (armedS 0x18#8).cmd = (armedS 0x18#8).cfg.pageEraseCode := by decide

theorem witness_NopPaysTriggeredCycles : (triggeredS .noEffect).fault = none ∧
    (triggeredS .noEffect).phase = .triggered := by decide

theorem witness_WrCmdRefusesReservedCode : 0x00#8 ≠ idleS.cfg.pageEraseCode ∧ 0x00#8 ≠ idleS.cfg.wordWriteCode := by
  decide

/-- The clauses of OnlyAges that WrCmdRefusesReservedCode, RefusedOperationsMarkOnly and
InterleavedOperationsRefused state: each phase, at the bound of its window and with a latch. -/
theorem witness_OnlyAges : idleS.phase = .idle ∧ (triggeredS .noEffect).phase = .triggered ∧
    (busyS .noEffect).phase = .busy ∧ ({ loadedS 0x18#8 with age := 3 }.phase = .cmdLoaded ∧
      { loadedS 0x18#8 with age := 3 }.age + 1 = (loadedS 0x18#8).cfg.ceWindow) ∧
    latchedS.phase = .armed ∧ latchedS.ew - 1 ≠ 0 ∧ { latchedS with ew := 1 }.ew - 1 = 0 := by decide

/-- WrProtArmsCommand, EnableCodeArms. -/
theorem witness_WrProtArmsCommand : (loadedS 0x18#8).fault = none ∧ (loadedS 0x18#8).phase = .cmdLoaded ∧
    decodeProtCode (loadedS 0x18#8).cfg 0xE7#8 = some .enable := by decide

/-- Each of the three kinds of refused operation. -/
theorem witness_RefusedOperationsMarkOnly :
    ((Instr.rdProt = .rdCmd ∨ Instr.rdProt = .rdProt) ∧ Refusal.unreadableRegister = .unreadableRegister) ∧
    ((∃ d, Instr.wrStatus 0xFF#8 = .wrStatus d) ∧ Refusal.unwritableRegister = .unwritableRegister) ∧
    (((∃ mid, Instr.rsvdSelOdd 1#1 = .rsvdSelOdd mid) ∨ Instr.rsvdSelOdd 1#1 = .rsvdSelSix) ∧
      Refusal.reservedSelect = .reservedSelect) :=
  ⟨⟨.inr rfl, rfl⟩, ⟨⟨_, rfl⟩, rfl⟩, .inl ⟨_, rfl⟩, rfl⟩

theorem witness_InterleavedOperationsRefused : Instr.rdStatus.isBus = true ∧ Instr.rdStatus ≠ .nop ∧
    (∀ off d, Instr.rdStatus ≠ .stFlash off d) ∧ (loadedS 0x18#8).phase = .cmdLoaded ∧
    Instr.rdStatus ≠ .wrProt (loadedS 0x18#8).cfg.enableCode ∧ (armedS 0x18#8).phase = .armed :=
  ⟨rfl, by decide, fun _ _ h => (by cases h), by decide⟩

theorem witness_TriggeredAdmitsOnlyNop : Instr.rdStatus.isBus = true ∧ Instr.rdStatus ≠ .nop ∧
    (triggeredS .noEffect).phase = .triggered := by decide

theorem witness_BusyAdmitsNoWrite : (busyS .noEffect).phase = .busy ∧ (busyS .noEffect).Clean ∧
    (∃ d, Instr.wrProt 0#8 = .wrProt d) ∧ Instr.rdStatus.isBus = true := ⟨rfl, ⟨rfl, rfl⟩, ⟨_, rfl⟩, rfl⟩

theorem witness_UnarmedStoreFaults : idleS.phase = .idle ∧ (loadedS 0x18#8).phase = .cmdLoaded := by decide

/-- With an odd offset and an even one. -/
theorem witness_EraseTriggerStore : (armedS 0x18#8).fault = none ∧ (armedS 0x18#8).phase = .armed ∧
    (armedS 0x18#8).cmd = (armedS 0x18#8).cfg.pageEraseCode ∧ (0x3FF#10).getLsbD 0 = true ∧
    (0x3FE#10).getLsbD 0 = false := by decide

theorem witness_FirstStoreLatchesLowByte : (armedS 0x1D#8).cfg.Valid ∧ (armedS 0x1D#8).fault = none ∧
    (armedS 0x1D#8).phase = .armed ∧ (armedS 0x1D#8).cmd = (armedS 0x1D#8).cfg.wordWriteCode ∧
    (armedS 0x1D#8).lat = none ∧ (0x3FE#10).getLsbD 0 = false := ⟨tc0_valid, by decide⟩

theorem witness_SecondStoreCommits : latchedS.cfg.Valid ∧ latchedS.fault = none ∧ latchedS.phase = .armed ∧
    latchedS.cmd = latchedS.cfg.wordWriteCode ∧ latchedS.lat = some { off := 0x3F0#10, byte := 0x34#8 } ∧
    (0x3F1#10).toNat = (0x3F0#10).toNat + 1 := ⟨tc0_valid, by decide⟩

/-- Both cases: an odd first store, and the low byte stored twice. -/
theorem witness_OtherStoresAreMalformed : (armedS 0x1D#8).cfg.Valid ∧
    ((armedS 0x1D#8).phase = .armed ∧ (armedS 0x1D#8).cmd = (armedS 0x1D#8).cfg.wordWriteCode ∧
      (armedS 0x1D#8).lat = none ∧ (0x3F1#10).getLsbD 0 = true) ∧
    (latchedS.phase = .armed ∧ latchedS.cmd = latchedS.cfg.wordWriteCode ∧
      latchedS.lat = some { off := 0x3F0#10, byte := 0x34#8 } ∧ (0x3F0#10).toNat ≠ (0x3F0#10).toNat + 1) :=
  ⟨tc0_valid, by decide⟩

theorem witness_CompleteErasesPage : (busyS (.erasePage 63)).flash.wf = true ∧ (busyS (.erasePage 63)).fault = none ∧
    (busyS (.erasePage 63)).phase = .busy ∧ (busyS (.erasePage 63)).eff = .erasePage 63 := by decide

theorem witness_CompleteAndsWord : (busyS (.writeWord 511 0#16)).flash.wf = true ∧
    (busyS (.writeWord 511 0#16)).fault = none ∧ (busyS (.writeWord 511 0#16)).phase = .busy ∧
    (busyS (.writeWord 511 0#16)).eff = .writeWord 511 0#16 := by decide

/-- Enabled with nothing to apply; not enabled by the phase; not enabled by a fault. -/
theorem witness_CompleteOnlyWhenEnabled : ((busyS .noEffect).phase = .busy ∧ (busyS .noEffect).fault = none ∧
      (busyS .noEffect).eff = .noEffect) ∧ idleS.phase ≠ .busy ∧ faultedS.fault ≠ none := by decide

/-- A cycle, and COMPLETE of a write in which a bit falls. -/
theorem witness_FlashBitLaw : idleS.flash.wf = true ∧ (∃ t, exec .nop idleS = .next t ∧ t.fault = none) ∧
    (∃ t, exec .complete (busyS (.writeWord 504 0x7FFF#16)) = .next t ∧ t.fault = none ∧
      (busyS (.writeWord 504 0x7FFF#16)).flashWord 504 = 0xABCD#16 ∧ t.flashWord 504 = 0x2BCD#16) ∧
    (∃ t, exec .complete (busyS (.erasePage 63)) = .next t ∧ t.fault = none ∧ t.flashWord 504 = 0xFFFF#16) :=
  ⟨by decide, ⟨_, rfl, by decide⟩, ⟨_, rfl, by decide⟩, ⟨_, rfl, by decide⟩⟩

/-- With a mark set before: MarksKeepFirstReason. With none: ParametersNeverChange. -/
theorem witness_MarksKeepFirstReason : (∃ t, exec .reset faultedS = .next t) ∧
    faultedS.fault = some .malformedWrite ∧ (∃ t, exec (.waitNotBusy [] 0) (busyS .noEffect) = .next t) :=
  ⟨⟨_, rfl⟩, rfl, _, rfl⟩

/-- A fault raised in a cycle, and one raised by RESET. -/
theorem witness_FaultUnspecifiesFlash : (∃ t, exec (.stFlash 0#10 0#8) idleS = .next t ∧ t.fault ≠ none) ∧
    (∃ t, exec .reset (busyS .noEffect) = .next t ∧ t.fault ≠ none) :=
  ⟨⟨_, rfl, by decide⟩, _, rfl, by decide⟩

/-- A cycle, COMPLETE and RESET. -/
theorem witness_PhaseGraphHasNoOtherEdge : (∃ t, exec .nop (triggeredS .noEffect) = .next t) ∧
    (∃ t, exec .complete (busyS .noEffect) = .next t) ∧ ∃ t, exec .reset latchedS = .next t :=
  ⟨⟨_, rfl⟩, ⟨_, rfl⟩, _, rfl⟩

/-- An operation that changes CMD, one that changes the effect, one that sets the latch, and one that clears it
in a state that meets the invariant. -/
theorem witness_BusOperationsFrame : (∃ t, exec (.wrCmd 0x18#8) idleS = .next t ∧ t.cmd ≠ idleS.cmd) ∧
    (∃ t, exec (.stFlash 0x3F1#10 0#8) (armedS 0x18#8) = .next t ∧ t.eff ≠ (armedS 0x18#8).eff) ∧
    (∃ t, exec (.stFlash 0x3F0#10 0#8) (armedS 0x1D#8) = .next t ∧ t.lat ≠ (armedS 0x1D#8).lat) ∧
    latchedS.Inv ∧ (∃ t, exec (.stFlash 0x3F1#10 0#8) latchedS = .next t ∧ t.lat ≠ latchedS.lat ∧ t.lat = none) :=
  ⟨⟨_, rfl, by decide⟩, ⟨_, rfl, by decide⟩, ⟨_, rfl, by decide⟩, latchedS_inv, _, rfl, by decide⟩

theorem witness_WaitNotBusyEnds : ((busyS (.erasePage 63)).fault = none ∧ (busyS (.erasePage 63)).phase = .busy) ∧
    idleS.fault = none ∧ idleS.phase = .idle ∧ idleS.eff = .noEffect := by decide

/-- ErasePageResult and TwoWritesAccumulateAnd's first hypotheses; both gaps at their bounds, and both kinds of
address. -/
theorem witness_ErasePageResult : idleS.cfg.Valid ∧ idleS.flash.wf = true ∧ idleS.fault = none ∧
    idleS.phase = .idle ∧ flashOffset idleS.cfg 0x43F1 = .ok 0x3F1#10 ∧ flashOffset idleS.cfg 0x43F0 = .ok 0x3F0#10 ∧
    3 + 1 ≤ idleS.cfg.ceWindow ∧ 3 + 1 ≤ 4 ∧ bsel 0x3F1#10 = true ∧ bsel 0x3F0#10 = false := ⟨tc0_valid, by decide⟩

/-- WriteWordResult, ReadWordReturnsWord, TwoWritesAccumulateAnd. -/
theorem witness_WriteWordResult : idleS.cfg.Valid ∧ idleS.flash.wf = true ∧ idleS.fault = none ∧
    idleS.phase = .idle ∧ flashOffset idleS.cfg 0x43FE = .ok 0x3FE#10 ∧ flashOffset idleS.cfg 0x43FF = .ok 0x3FF#10 ∧
    0 + 1 ≤ idleS.cfg.ceWindow ∧ 1 + 1 + 2 ≤ 4 ∧ 0x43FE % 2 = 0 ∧ 0x43FF % 2 = 1 := ⟨tc0_valid, by decide⟩

/-- ReadByteRunsChosenOperation, WriteByteRunsChosenOperation: each choice of the address decoder. -/
theorem witness_ReadByteRunsChosenOperation : idleS.cfg.Valid ∧ idleS.fault = none ∧ idleS.phase = .idle ∧
    flashOffset idleS.cfg 0x4000 = .ok 0#10 ∧ idleS.cfg.statusAddr < 2 ^ idleS.cfg.addrWidth ∧
    idleS.cfg.cmdAddr < 2 ^ idleS.cfg.addrWidth ∧ idleS.cfg.protAddr < 2 ^ idleS.cfg.addrWidth ∧
    0x4000 < 2 ^ idleS.cfg.addrWidth ∧ 0xFFFF < 2 ^ idleS.cfg.addrWidth ∧ ¬ idleS.cfg.InWindow 0xFFFF ∧
    0xFFFF ≠ idleS.cfg.statusAddr ∧ 0xFFFF ≠ idleS.cfg.cmdAddr ∧ 0xFFFF ≠ idleS.cfg.protAddr ∧
    0x1D#8 = idleS.cfg.wordWriteCode := ⟨tc0_valid, by decide⟩

theorem witness_DriverRefusesOutsideDomain : ¬ idleS.cfg.InWindow 0x3FFF ∧ 2 ^ idleS.cfg.addrWidth ≤ 0x10000 := by
  decide

theorem witness_EraseWriteReadRoundTrip : idleS.cfg.Valid ∧ idleS.flash.wf = true ∧ idleS.fault = none ∧
    idleS.phase = .idle ∧ idleS.cfg.InWindow 0x43FE ∧ 0x43FE % 2 = 0 ∧ 3 + 1 ≤ idleS.cfg.ceWindow ∧ 3 + 1 ≤ 4 ∧
    2 + 0 + 2 ≤ 4 := ⟨tc0_valid, by decide⟩

theorem witness_StepRunsPresentedWord : { idleS with agenda := [.word 0x0C0000#22] }.agenda = .word 0x0C0000#22 :: [] ∧
    0x0C0000 < 2 ^ 24 ∧ decodeTableWord 24 0x0C0000 = some .rdStatus := by decide

theorem witness_StepRunsOtherEvents : { idleS with agenda := [.act .reset] }.agenda = .act .reset :: [] ∧
    ((busyS .noEffect).agenda = [] ∧ (busyS .noEffect).phase = .busy ∧ (busyS .noEffect).fault = none) ∧
    (idleS.agenda = [] ∧ idleS.phase ≠ .busy) := by decide

theorem witness_BusyEndsAfterHostWords :
    { busyS (.erasePage 63) with agenda := [.word 0x0C0000#22, .word 0#22] }.agenda =
      [0x0C0000#22, 0#22].map .word ∧ (busyS (.erasePage 63)).fault = none ∧ (busyS (.erasePage 63)).phase = .busy ∧
    ∀ T ∈ [0x0C0000#22, 0#22], decode T = .nop ∨ decode T = .rdStatus := by
  refine ⟨rfl, rfl, rfl, fun T h => ?_⟩
  rcases List.mem_pair.mp h with rfl | rfl
  · exact .inr (by decide)
  · exact .inl (by decide)

theorem witness_SequenceIsRunOfItsWords : ∀ i ∈ [Instr.wrCmd 0x18#8, .nop, .wrProt 0xE7#8], i.isBus = true := by decide

end Sys2Proof.Tests
end

section
/-! The bit law of the flash (R24): which single steps leave the flash as it is, and which pending effect can
change a bit. -/

namespace Sys2Proof.Machine

/-! ### The flash through the steps that are not COMPLETE -/

theorem unspecifyFlash_flash_clean {s : State} (hf : s.fault = none) : (unspecifyFlash s).flash = s.flash := by
  rw [unspecifyFlash_flash, hf]

/-- A RESET that does not interrupt a flash operation leaves the flash as it is (R220, R221). -/
theorem resetStep_flash {s : State} (hf : (resetStep s).fault = none) : (resetStep s).flash = s.flash := by
  unfold resetStep at hf ⊢
  cases hp : s.phase <;> simp only [hp, unspecifyFlash_fault] at hf ⊢
  case triggered => simp at hf
  case busy => simp at hf
  all_goals exact unspecifyFlash_flash_clean hf

/-- A code row is the cycle of the register operation that carries it, so every single step but COMPLETE is one
bus cycle or RESET. -/
theorem exec_keeps_flash {s t : State} {i : Instr}
    (hi : i.isBus = true ∨ i = .pageErase ∨ i = .wordWrite ∨ (∃ c, i = .cmdReserved c) ∨ i = .enable ∨ i = .busy ∨
      i = .reset) (h : exec i s = .next t) (hf : t.fault = none) : t.flash = s.flash := by
  have kept {j : Instr} (hj : j.isBus = true) (hj' : (cycleOf j s).fault = none) : (cycleOf j s).flash = s.flash :=
    (cycleOf_frame hj s).flashKept hj'
  rcases hi with hbus | hcode
  · rw [exec_bus hbus, Host.Outcome.next.injEq] at h
    subst h
    exact kept hbus hf
  rcases hcode with rfl | rfl | ⟨c, rfl⟩ | rfl | rfl | rfl <;> obtain rfl := Host.Outcome.next.inj h
  · exact kept (j := .wrCmd s.cfg.pageEraseCode) rfl hf
  · exact kept (j := .wrCmd s.cfg.wordWriteCode) rfl hf
  · exact kept (j := .wrCmd c) rfl hf
  · exact kept (j := .wrProt s.cfg.enableCode) rfl hf
  · exact kept (j := .rdStatus) rfl hf
  · exact resetStep_flash hf

/-- Where COMPLETE has a next state it is that of `completeStep` (R179). -/
theorem eq_completeStep_of_exec {s t : State} (h : exec .complete s = .next t) : t = completeStep s := by
  simp only [exec, execComplete] at h
  cases hc : s.canComplete with
  | false => simp [hc] at h
  | true => simpa [hc] using h.symm

/-! ### The bits through a pending effect -/

theorem pageOf_eq_of_div {w : WordIndex} {p : PageNo} (h : w.toNat / 8 = p.toNat) : p = pageOf w := by
  apply BitVec.eq_of_toNat_eq
  simp only [pageOf, BitVec.extractLsb'_toNat, Nat.shiftRight_eq_div_pow]
  omega

theorem getLsbD_erasedWord {k : Nat} (hk : k < 16) : erasedWord.getLsbD k = true := by
  simpa [hk] using BitVec.getLsbD_allOnes (v := 16) (i := k)

/-- A bit rises only where the effect erases its page. -/
theorem Memory.erases_of_bit_rises {m : Memory} {eff : Effect} {w : WordIndex} {k : Nat} (hwf : m.wf = true)
    (h0 : (m.word w.toNat).getLsbD k = false) (h1 : ((m.apply eff).word w.toNat).getLsbD k = true) :
    eff = .erasePage (pageOf w) := by
  cases eff with
  | noEffect => simp [Memory.apply, h0] at h1
  | erasePage p =>
    rw [Memory.apply, Memory.word_erasePage p _ hwf] at h1
    split at h1
    next hpage => rw [pageOf_eq_of_div hpage]
    next => simp [h0] at h1
  | writeWord x v =>
    rw [Memory.apply, Memory.word_programWord x v _ hwf] at h1
    split at h1
    next => simp [h0] at h1
    next => simp [h0] at h1

/-- A bit falls only where the effect writes its word with a 0 there. -/
theorem Memory.writes_of_bit_falls {m : Memory} {eff : Effect} {w : WordIndex} {k : Nat} (hwf : m.wf = true)
    (h1 : (m.word w.toNat).getLsbD k = true) (h0 : ((m.apply eff).word w.toNat).getLsbD k = false) :
    ∃ v : FlashWord, eff = .writeWord w v ∧ v.getLsbD k = false := by
  cases eff with
  | noEffect => simp [Memory.apply, h1] at h0
  | erasePage p =>
    rw [Memory.apply, Memory.word_erasePage p _ hwf] at h0
    split at h0
    next => simp [getLsbD_erasedWord (BitVec.lt_of_getLsbD h1)] at h0
    next => simp [h1] at h0
  | writeWord x v =>
    rw [Memory.apply, Memory.word_programWord x v _ hwf] at h0
    split at h0
    next hword =>
      obtain rfl := BitVec.eq_of_toNat_eq hword
      exact ⟨v, rfl, by simpa [h1] using h0⟩
    next => simp [h1] at h0

/-- Settles O41: every single step but COMPLETE keeps the flash by its frame, and COMPLETE changes it by the
pending effect, whose two kinds move a bit in one direction each. -/
theorem flashBitLaw : Obligations.FlashBitLaw := by
  intro s t i hwf h hf
  refine ⟨fun hi => exec_keeps_flash hi h hf, ?_⟩
  rintro rfl w k -
  obtain rfl := eq_completeStep_of_exec h
  exact ⟨Memory.erases_of_bit_rises hwf, Memory.writes_of_bit_falls hwf⟩

end Sys2Proof.Machine
end

section
/-! The decode table (R81): selecting a row and the mnemonic of the decoded operation look at `rw` and `sel`
alone, so the table is checked on the sixteen values of these two fields. -/

namespace Sys2Proof

/-- No row's mask has a bit of `off` or `data`. -/
theorem busRows_mask_low_bits : ∀ r ∈ busRows, ∀ i < 18, r.mask.getLsbD i = false := by decide

theorem pack_and_mask {m : Transaction} (hm : ∀ i < 18, m.getLsbD i = false) (rw : Bool) (sel : BitVec 3)
    (off off' : Offset) (data data' : Byte) : pack rw sel off data &&& m = pack rw sel off' data' &&& m := by
  apply BitVec.eq_of_getLsbD_eq
  intro i _
  rw [BitVec.getLsbD_and, BitVec.getLsbD_and]
  rcases Nat.lt_or_ge i 18 with hlow | hhigh
  · rw [hm i hlow, Bool.and_false, Bool.and_false]
  · simp [getLsbD_pack, Nat.not_lt.mpr hhigh, show ¬ i < 8 by omega]

theorem BusRow.selects_pack {r : BusRow} (hr : r ∈ busRows) (rw : Bool) (sel : BitVec 3) (off off' : Offset)
    (data data' : Byte) : r.selects (pack rw sel off data) = r.selects (pack rw sel off' data') := by
  rw [selects, selects, pack_and_mask (busRows_mask_low_bits r hr)]

/-- The operand fields reach the operands of the decoded operation, never its mnemonic. -/
theorem mnemonic_decode_pack (rw : Bool) (sel : BitVec 3) (off off' : Offset) (data data' : Byte) :
    mnemonic (decode (pack rw sel off data)) = mnemonic (decode (pack rw sel off' data')) := by
  rw [decode_pack, decode_pack]
  split_ifs <;> cases rw <;> rfl

/-- R81's table at every `rw` and `sel`: one row is selected, and it is the decoded operation's. -/
theorem busRows_select_mnemonic : ∀ (rw : Bool) (sel : BitVec 3),
    (busRows.filter fun r => r.selects (pack rw sel 0#10 0#8)).map (·.name) =
      [mnemonic (decode (pack rw sel 0#10 0#8))] := by decide

/-- Settles O2: a word is its four fields, the rows and the mnemonic do not look at `off` and `data`, and with
these two at zero the table is checked row by row. -/
theorem everyWordSelectsOneRow : Obligations.EveryWordSelectsOneRow := by
  intro T
  rw [← pack_fields T, mnemonic_decode_pack _ _ _ 0#10 _ 0#8, ← busRows_select_mnemonic]
  congr 1
  exact List.filter_congr fun r hr => BusRow.selects_pack hr _ _ _ _ _ _

end Sys2Proof
end

section
/-! The register operations where they are accepted (R102, R104, R106): each cycle is the shared end of a cycle
after the rule's own assignments. -/

namespace Sys2Proof.Machine

theorem wrCmdCycle_of_legal_idle {s : State} {d : Byte} (hp : s.phase = .idle) (hd : legalCode s.cfg d = true) :
    wrCmdCycle d s = endCycle none (loadCommand d s) := by
  simp only [wrCmdCycle, hp, hd, cond_true]

theorem wrProtCycle_enable_of_cmdLoaded {s : State} (hp : s.phase = .cmdLoaded) :
    wrProtCycle s.cfg.enableCode s = endCycle none (armCommand s) := by
  simp only [wrProtCycle, hp, if_true]

/-- RD_STATUS has an answer in these two phases only (R106, R111, R112). -/
theorem rdStatusCycle_of_idle_or_busy {s : State} (hp : s.phase = .idle ∨ s.phase = .busy) :
    rdStatusCycle s = endCycle (some s.status) s := by
  rcases hp with hidle | hbusy
  · simp only [rdStatusCycle, hidle]
  · simp only [rdStatusCycle, hbusy]

/-- R106 bit by bit: BUSY (R28) at BUSY_BIT, the byte drawn in this cycle elsewhere. -/
theorem State.status_bit (s : State) (j : Fin 8) :
    s.status.getLsbD j =
      if j = s.cfg.busyBit then decide (s.phase = .busy) else (Config.freeByte s.draws).getLsbD j :=
  statusByte_bit s.cfg.busyBit s.busy (Config.freeByte s.draws) j

/-- Settles O19: the cycle is the end of a cycle without an answer after the command is loaded, and loading sets
no fault. -/
theorem wrCmdLoadsLegalCode : Obligations.WrCmdLoadsLegalCode := by
  intro s d hf hp hd
  have hload : (loadCommand d s).fault = none := hf
  rw [exec_bus rfl, cycleOf, wrCmdCycle_of_legal_idle hp (legalCode_iff.mpr hd), endCycle_clean none hload]
  rfl

/-- Settles O21: the cycle is the end of a cycle without an answer after the command is armed, and arming sets
no fault. -/
theorem wrProtArmsCommand : Obligations.WrProtArmsCommand := by
  intro s hf hp
  have harm : (armCommand s).fault = none := hf
  rw [exec_bus rfl, cycleOf, wrProtCycle_enable_of_cmdLoaded hp, endCycle_clean none harm]
  rfl

/-- Settles O23: the byte answered is the status byte. -/
theorem rdStatusShowsBusy : Obligations.RdStatusShowsBusy := by
  intro s hf hp
  refine ⟨s.status, ?_, s.status_bit⟩
  rw [exec_bus rfl, cycleOf, rdStatusCycle_of_idle_or_busy hp, endCycle_clean _ hf, Option.getD_some]

end Sys2Proof.Machine
end

section
/-! Page erase: the trigger store that selects the page (R121 to R124), and the COMPLETE that erases it (R125). -/

namespace Sys2Proof.Machine

theorem stFlashCycle_erase_of_armed {s : State} (off : Offset) (d : Byte) (hp : s.phase = .armed)
    (hc : s.cmd = s.cfg.pageEraseCode) : stFlashCycle off d s = endCycle none (trigger (eraseEffect off) s) := by
  simp only [stFlashCycle, hp, armedStoreCycle, if_pos hc, eraseStoreCycle]

theorem canComplete_iff {s : State} : s.canComplete = true ↔ s.phase = .busy ∧ s.fault = none := by
  simp [State.canComplete]

/-- Where COMPLETE is enabled it takes place (R179). -/
theorem exec_complete_of_enabled {s : State} (hp : s.phase = .busy) (hf : s.fault = none) :
    exec .complete s = .next (completeStep s) := by
  simp only [exec, execComplete, canComplete_iff.mpr ⟨hp, hf⟩, cond_true]

theorem pageOf_eq_iff {w : WordIndex} {p : PageNo} : pageOf w = p ↔ w.toNat / 8 = p.toNat := by
  refine ⟨?_, fun h => (pageOf_eq_of_div h).symm⟩
  rintro rfl
  simp only [pageOf, BitVec.extractLsb'_toNat, Nat.shiftRight_eq_div_pow]
  omega

/-- R125 with the page of a word index. -/
theorem Memory.word_erasePage_pageOf {m : Memory} (p : PageNo) (w : WordIndex) (hwf : m.wf = true) :
    (m.erasePage p).word w.toNat = if pageOf w = p then erasedWord else m.word w.toNat := by
  simp only [Memory.word_erasePage p _ hwf, pageOf_eq_iff]

/-- Settles O38: COMPLETE is enabled, its new flash is the old one with the page erased, and that is known word
by word. -/
theorem completeErasesPage : Obligations.CompleteErasesPage := by
  intro s p hwf hf hp he
  refine ⟨s.flash.erasePage p, ?_, fun w => Memory.word_erasePage_pageOf p w hwf⟩
  rw [exec_complete_of_enabled hp hf, completeStep, he, Memory.apply]

/-- Settles O34: the cycle is the end of a cycle without an answer after the trigger, and the trigger sets no
fault. -/
theorem eraseTriggerStore : Obligations.EraseTriggerStore := by
  intro s off d hf hp hc
  have htrigger : (trigger (eraseEffect off) s).fault = none := hf
  rw [exec_bus rfl, cycleOf, stFlashCycle_erase_of_armed off d hp hc, endCycle_clean none htrigger]
  rfl

end Sys2Proof.Machine
end

section
/-! Word write: the store that is latched (R137), the store that commits the word (R138), and the COMPLETE that
writes it (R141). -/

namespace Sys2Proof.Machine

/-! ### The stores of a word write in Armed -/

/-- The two command codes differ (R9), so a store under the word-write code is never an erase trigger. -/
theorem stFlashCycle_write_of_armed {s : State} (off : Offset) (d : Byte) (hv : s.cfg.Valid) (hp : s.phase = .armed)
    (hc : s.cmd = s.cfg.wordWriteCode) : stFlashCycle off d s = writeStoreCycle off d s := by
  have hne : s.cmd ≠ s.cfg.pageEraseCode := hc ▸ hv.codesDiffer.symm
  simp only [stFlashCycle, hp, armedStoreCycle, if_neg hne, if_pos hc]

theorem writeStore_first {off : Offset} (d : Byte) (he : bsel off = false) : writeStore none off d = .first := by
  simp [writeStore, he]

theorem writeStore_second {l : Latch} {off : Offset} (d : Byte) (ho : off.toNat = l.off.toNat + 1) :
    writeStore (some l) off d = .second (.writeWord (wordIndex l.off) (d ++ l.byte)) :=
  if_pos ho

/-- R177 as one update: what is left of the window decides the phase and the latch. -/
theorem aging_armed (n : Bool) {s : State} (hp : s.phase = .armed) :
    aging n s = { s with
      lat := if s.ew - 1 = 0 then none else s.lat
      ew := s.ew - 1
      phase := if s.ew - 1 = 0 then .idle else .armed } := by
  by_cases hew : s.ew - 1 = 0
  · simp [aging, hp, ageArmed, hew]
  · simp [aging, hp, ageArmed, hew]

theorem quietCycle_armed_clean {s : State} (hf : s.fault = none) (hp : s.phase = .armed) :
    quietCycle s = { s with
      lat := if s.ew - 1 = 0 then none else s.lat
      ew := s.ew - 1
      phase := if s.ew - 1 = 0 then .idle else .armed
      rdata := Config.freeByte s.draws
      draws := s.draws + 1 } := by
  rw [quietCycle, endCycle_clean none ((aging_fault _ _).trans hf), aging_armed _ hp]
  rfl

/-- Settles O35: the store is the first one, and its cycle is a quiet cycle in Armed after the latch is set. -/
theorem firstStoreLatchesLowByte : Obligations.FirstStoreLatchesLowByte := by
  intro s off d hv hf hp hc hl he
  have hcycle : stFlashCycle off d s = quietCycle { s with lat := some { off := off, byte := d } } := by
    rw [stFlashCycle_write_of_armed off d hv hp hc, writeStoreCycle, hl, writeStore_first d he]
  rw [exec_bus rfl, cycleOf, hcycle]
  exact congrArg _ (quietCycle_armed_clean (s := { s with lat := some { off := off, byte := d } }) hf hp)

/-- Settles O36: the store is the second one, and its cycle is the end of a cycle without an answer after the
trigger, which sets no fault. -/
theorem secondStoreCommits : Obligations.SecondStoreCommits := by
  intro s l off d hv hf hp hc hl ho
  have hcycle : stFlashCycle off d s =
      endCycle none (trigger (.writeWord (wordIndex l.off) (d ++ l.byte)) s) := by
    rw [stFlashCycle_write_of_armed off d hv hp hc, writeStoreCycle, hl, writeStore_second d ho]
  rw [exec_bus rfl, cycleOf, hcycle, endCycle_clean none ((trigger_fault _ _).trans hf)]
  rfl

/-! ### COMPLETE of a word write -/

/-- R141 at a word index. -/
theorem Memory.word_programWord_index {m : Memory} (w x : WordIndex) (v : FlashWord) (hwf : m.wf = true) :
    (m.programWord w v).word x.toNat = if x = w then m.word x.toNat &&& v else m.word x.toNat := by
  simp only [Memory.word_programWord w v _ hwf, BitVec.toNat_inj]

/-- Settles O39: COMPLETE is enabled, its new flash is the old one with the word programmed, and that is known
word by word. -/
theorem completeAndsWord : Obligations.CompleteAndsWord := by
  intro s w v hwf hf hp he
  refine ⟨s.flash.programWord w v, ?_, fun x => Memory.word_programWord_index w x v hwf⟩
  rw [exec_complete_of_enabled hp hf, completeStep, he, Memory.apply]

end Sys2Proof.Machine
end

section
/-! Loads from the flash window (R150, R151): the byte at an offset is one of the two bytes of its word, and a load
answers it in Idle and nothing fixed in Busy. -/

namespace Sys2Proof.Machine

/-! ### The byte at an offset -/

theorem Memory.get_even (m : Memory) {a : Nat} (ha : a % 2 = 0) : m.get a = (m.word (a / 2)).extractLsb' 0 8 := by
  rw [Memory.word, lowByte_append, show 2 * (a / 2) = a by omega]

theorem Memory.get_odd (m : Memory) {a : Nat} (ha : a % 2 = 1) : m.get a = (m.word (a / 2)).extractLsb' 8 8 := by
  rw [Memory.word, highByte_append, show 2 * (a / 2) + 1 = a by omega]

theorem bsel_iff {off : Offset} : bsel off = true ↔ off.toNat % 2 = 1 := by
  rw [bsel_eq, decide_eq_true_iff]

/-- FB(off) as R150 writes it out: BSEL chooses between the two bytes of the word the offset lies in. -/
theorem State.flashByte_eq (s : State) (off : Offset) :
    s.flashByte off = if bsel off then (s.flashWord (wordIndex off)).extractLsb' 8 8
                      else (s.flashWord (wordIndex off)).extractLsb' 0 8 := by
  rw [State.flashByte, State.flashWord, wordIndex_toNat]
  split_ifs with hb
  · exact s.flash.get_odd (bsel_iff.mp hb)
  · exact s.flash.get_even (Nat.mod_two_ne_one.mp (mt bsel_iff.mpr hb))

/-! ### The load -/

theorem ldFlashCycle_of_idle {s : State} (off : Offset) (hp : s.phase = .idle) :
    ldFlashCycle off s = endCycle (some (s.flashByte off)) s := by
  simp only [ldFlashCycle, hp]

theorem ldFlashCycle_of_busy {s : State} (off : Offset) (hp : s.phase = .busy) :
    ldFlashCycle off s = endCycle none s := by
  simp only [ldFlashCycle, hp]

/-- Settles O31: the byte answered is the one at the offset, written out as a byte of its word. -/
theorem ldFlashReturnsByte : Obligations.LdFlashReturnsByte := by
  intro s off hf hp
  rw [exec_bus rfl, cycleOf, ldFlashCycle_of_idle off hp, endCycle_clean _ hf, Option.getD_some, State.flashByte_eq]
  rfl

/-- Settles O32: the cycle ends without an answer of its own, so the byte is the one drawn (R80). -/
theorem ldFlashInBusyIsDrawn : Obligations.LdFlashInBusyIsDrawn := by
  intro s off hf hp
  rw [exec_bus rfl, cycleOf, ldFlashCycle_of_busy off hp, endCycle_clean none hf, Option.getD_none]

end Sys2Proof.Machine
end

section
/-! The driver's byte accesses and word read (R190 to R192): each byte access is the one operation the address
decoder chooses, a word read from Idle answers the two bytes of its word, and RESET in Idle keeps the flash. -/

namespace Sys2Proof.Machine

/-! ### Addresses in the window -/

/-- R161, R167: the translator is defined exactly on the addresses of the window, `base + off` for the offsets. -/
theorem flashOffset_eq_ok_iff {c : Config} {addr : Nat} {off : Offset} :
    flashOffset c addr = .ok off ↔ addr = c.flashMapBase + off.toNat := by
  have hlt := off.isLt
  unfold flashOffset
  split_ifs with hw
  · simp only [Except.ok.injEq, ← BitVec.toNat_inj, BitVec.toNat_ofNat]
    simp only [Config.InWindow, flashBytes] at hw
    omega
  · refine ⟨nofun, ?_⟩
    rintro rfl
    exact hw ⟨Nat.le_add_right _ _, Nat.add_lt_add_left hlt _⟩

theorem inWindow_of_flashOffset {c : Config} {addr : Nat} {off : Offset} (h : flashOffset c addr = .ok off) :
    c.InWindow addr := by
  rw [flashOffset_eq_ok_iff.mp h]
  exact ⟨Nat.le_add_right _ _, Nat.add_lt_add_left off.isLt _⟩

theorem exists_flashOffset {c : Config} {addr : Nat} (hw : c.InWindow addr) :
    ∃ off, flashOffset c addr = .ok off := ⟨_, if_pos hw⟩

theorem memReadOp_of_flashOffset {c : Config} {addr : Nat} {off : Offset} (h : flashOffset c addr = .ok off) :
    memReadOp c addr = .ldFlash off := by
  rw [memReadOp_window (inWindow_of_flashOffset h), flashOffset_eq_ok_iff.mp h, Nat.add_sub_cancel_left,
    BitVec.ofNat_toNat, BitVec.setWidth_eq]

theorem memWriteOp_of_flashOffset {c : Config} {addr : Nat} {off : Offset} (h : flashOffset c addr = .ok off)
    (v : Byte) : memWriteOp c addr v = .stFlash off v := by
  rw [memWriteOp_window (inWindow_of_flashOffset h), flashOffset_eq_ok_iff.mp h, Nat.add_sub_cancel_left,
    BitVec.ofNat_toNat, BitVec.setWidth_eq]

/-- The window begins at an even address (R9), so an address and its offset have one parity. -/
theorem flashOffset_even {c : Config} {addr : Nat} {off : Offset} (hv : c.Valid) (h : flashOffset c addr = .ok off)
    (he : addr % 2 = 0) : off.toNat % 2 = 0 := by
  have haddr := flashOffset_eq_ok_iff.mp h
  have hbase := hv.baseAligned
  simp only [pageBytes] at hbase
  omega

theorem toNat_succ_of_even {off : Offset} (he : off.toNat % 2 = 0) : (off + 1).toNat = off.toNat + 1 := by
  bv_omega

theorem flashOffset_succ {c : Config} {addr : Nat} {off : Offset} (h : flashOffset c addr = .ok off)
    (he : off.toNat % 2 = 0) : flashOffset c (addr + 1) = .ok (off + 1) := by
  rw [flashOffset_eq_ok_iff, toNat_succ_of_even he, flashOffset_eq_ok_iff.mp h, Nat.add_assoc]

/-- A word is its byte at the odd offset above its byte at the even one (R50). -/
theorem State.flashByte_append (s : State) {off : Offset} (he : off.toNat % 2 = 0) :
    s.flashByte (off + 1) ++ s.flashByte off = s.flashWord (wordIndex off) := by
  rw [flashByte, flashByte, flashWord, wordIndex_toNat, Memory.word, toNat_succ_of_even he,
    show 2 * (off.toNat / 2) = off.toNat by omega]

/-! ### The byte accesses -/

/-- R191 in data space: one cycle of the operation the address decoder chooses. -/
theorem exec_readByte {s : State} {addr : Nat} (h : addr < 2 ^ s.cfg.addrWidth) :
    exec (.readByte addr) s = exec (memReadOp s.cfg addr) s := by
  rw [exec_bus (i := memReadOp s.cfg addr) (decode_isBus _), exec, execReadByte, inDomain, decide_eq_true h, cond_true]

/-- R192 in data space: one cycle of the operation the address decoder chooses. -/
theorem exec_writeByte {s : State} {addr : Nat} (v : Byte) (h : addr < 2 ^ s.cfg.addrWidth) :
    exec (.writeByte addr v) s = exec (memWriteOp s.cfg addr v) s := by
  rw [exec_bus (i := memWriteOp s.cfg addr v) (decode_isBus _), exec, execWriteByte, inDomain, decide_eq_true h,
    cond_true]

theorem cycleOf_ldFlash_of_idle {s : State} (off : Offset) (hf : s.fault = none) (hp : s.phase = .idle) :
    cycleOf (.ldFlash off) s = { s with rdata := s.flashByte off, draws := s.draws + 1 } := by
  rw [cycleOf, ldFlashCycle_of_idle off hp, endCycle_clean _ hf, Option.getD_some]

/-- R152 in Idle. -/
theorem stFlashCycle_fault_of_idle {s : State} (off : Offset) (d : Byte) (hf : s.fault = none)
    (hp : s.phase = .idle) : (stFlashCycle off d s).fault = some .unarmedFlashStore := by
  simp only [stFlashCycle, hp, unarmedCycle, quietCycle_fault, markFault_fault, hf, Option.getD_none]

/-- Settles O51: the access is the operation the address decoder chooses, which is known region by region. -/
theorem readByteRunsChosenOperation : Obligations.ReadByteRunsChosenOperation := by
  intro s addr hv haddr
  rw [exec_readByte haddr]
  refine ⟨fun off hoff => ?_, ?_, ?_, ?_, fun hw hstatus hcmd hprot => ?_⟩
  · rw [memReadOp_of_flashOffset hoff]
    exact ⟨rfl, fun hf hp => by rw [exec_bus rfl, cycleOf_ldFlash_of_idle off hf hp]⟩
  · rintro rfl
    rw [memReadOp_status hv]
  · rintro rfl
    rw [memReadOp_cmd hv]
  · rintro rfl
    rw [memReadOp_prot hv]
  · rw [(memOp_elsewhere hw hcmd hprot hstatus 0#8).1]

/-- Settles O52: the access is the operation the address decoder chooses, which is known region by region; in
Idle the store is not armed, and WR_CMD of a legal code loads it. -/
theorem writeByteRunsChosenOperation : Obligations.WriteByteRunsChosenOperation := by
  intro s addr v hv haddr
  rw [exec_writeByte v haddr]
  refine ⟨fun off hoff => ?_, ?_, ?_, ?_, fun hw hstatus hcmd hprot => ?_⟩
  · rw [memWriteOp_of_flashOffset hoff]
    exact ⟨rfl, fun hf hp => ⟨_, exec_bus rfl s, stFlashCycle_fault_of_idle off v hf hp⟩⟩
  · rintro rfl
    rw [memWriteOp_cmd hv]
    exact ⟨rfl, wrCmdLoadsLegalCode s v⟩
  · rintro rfl
    rw [memWriteOp_prot hv]
  · rintro rfl
    rw [memWriteOp_status hv]
  · rw [(memOp_elsewhere hw hcmd hprot hstatus v).2]

/-! ### The word read, and RESET before it -/

/-- R190: from Idle the two loads answer the bytes of the word, low byte first, and nothing else changes. -/
theorem readWordRun_of_idle {s : State} {addr : Nat} {off : Offset} (gap : Nat) (hf : s.fault = none)
    (hp : s.phase = .idle) (hoff : flashOffset s.cfg addr = .ok off) (he : off.toNat % 2 = 0) :
    readWordRun addr gap s = { s with
      rdata := s.flashByte (off + 1)
      result := s.flashWord (wordIndex off)
      draws := s.draws + gap + 2 } := by
  have hlow := cycleOf_ldFlash_of_idle off hf hp
  obtain ⟨r, hgap⟩ := nops_still gap { s with rdata := s.flashByte off, draws := s.draws + 1 } hf (.inl hp)
  have hhigh := cycleOf_ldFlash_of_idle (s := { s with rdata := r, draws := s.draws + 1 + gap }) (off + 1) hf hp
  rw [← s.flashByte_append he, readWordRun, memReadOp_of_flashOffset hoff,
    memReadOp_of_flashOffset (flashOffset_succ hoff he), hlow, hgap, hhigh,
    show s.draws + gap + 2 = s.draws + 1 + gap + 1 by omega]
  rfl

theorem exec_readWord {s : State} {addr : Nat} (gap : Nat) (hw : s.cfg.InWindow addr) :
    exec (.readWord addr gap) s = .next (readWordRun addr gap s) := by
  rw [exec, execReadWord, inDomain, decide_eq_true hw, cond_true]

/-- R220 in Idle: no flash operation is interrupted, and only the sequencer is cleared. -/
theorem resetStep_of_idle {s : State} (hf : s.fault = none) (hp : s.phase = .idle) :
    resetStep s = { clearSequencer s with draws := s.draws + 1 } := by
  simp only [resetStep, hp, unspecifyFlash, clearSequencer_fault, hf]

/-- Settles O12: RESET leaves the parameters, the flash and the absence of a fault as they are and ends in Idle,
where the word read answers the word of this same flash. -/
theorem flashPersistsAcrossReset : Obligations.FlashPersistsAcrossReset := by
  intro s addr gap hv hf hp hw he
  obtain ⟨off, hoff⟩ := exists_flashOffset hw
  have heven := flashOffset_even hv hoff he
  have hindex : BitVec.ofNat 9 ((addr - s.cfg.flashMapBase) / 2) = wordIndex off := by
    rw [flashOffset_eq_ok_iff.mp hoff, Nat.add_sub_cancel_left, ← wordIndex_toNat, BitVec.ofNat_toNat,
      BitVec.setWidth_eq]
  have hread := readWordRun_of_idle (s := { clearSequencer s with draws := s.draws + 1 }) gap hf rfl hoff heven
  refine ⟨_, _, congrArg Host.Outcome.next (resetStep_of_idle hf hp), exec_readWord gap hw, ?_⟩
  rw [hindex]
  exact congrArg State.result hread

end Sys2Proof.Machine
end

section
/-! The transaction words of the instructions (R80 to R84, R87, R88): an operation of the bus is its own expansion
and is read back from its word, ignored bits reach no operand, and the address decoder packs the select of the
region an address lies in. -/

namespace Sys2Proof

/-! ### Words and what they decode to -/

/-- An operation of the bus stands for itself (R93). -/
theorem expansion_of_isBus (c : Config) {i : Instr} (hi : i.isBus = true) : expansion c i = [i] := by
  cases i <;> simp only [Instr.isBus, Bool.false_eq_true] at hi <;> rfl

/-- An instruction that stands for one operation of the bus has one word, which decodes to that operation. -/
theorem encode_of_expansion {c : Config} {i j : Instr} (h : expansion c i = [j]) (hj : j.isBus = true) :
    ∃ T, encode c i = [T] ∧ decode T = j := by
  obtain ⟨T, hT⟩ := encodeOp_isBus hj
  exact ⟨T, by rw [encode, h, List.filterMap_cons_some hT, List.filterMap_nil], decode_encodeOp hT⟩

theorem decodeCmdCode_pageErase (c : Config) : decodeCmdCode c c.pageEraseCode = .pageErase := if_pos rfl

theorem decodeCmdCode_wordWrite {c : Config} (hv : c.Valid) : decodeCmdCode c c.wordWriteCode = .wordWrite := by
  rw [decodeCmdCode, if_neg hv.codesDiffer.symm, if_pos rfl]

theorem decodeCmdCode_reserved {c : Config} {code : Byte} (h : (Instr.cmdReserved code).wellFormed c = true) :
    decodeCmdCode c code = .cmdReserved code := by
  simp only [Instr.wellFormed, Bool.and_eq_true, bne_iff_ne] at h
  rw [decodeCmdCode, if_neg h.1, if_neg h.2]

/-- Settles O1: a bus operation is its own expansion and a code row's is the register write that carries it; in
both cases the one word decodes to that operation. -/
theorem encodedInstructionsDecodeBack : Obligations.EncodedInstructionsDecodeBack := by
  intro c i hwf
  have carried {d : Byte} (h : expansion c i = [.wrCmd d]) (hd : decodeCmdCode c d = i) :
      ∃ T d, encode c i = [T] ∧ decode T = .wrCmd d ∧ decodeCmdCode c d = i := by
    obtain ⟨T, hT, hdec⟩ := encode_of_expansion h rfl
    exact ⟨T, d, hT, hdec, hd⟩
  refine ⟨fun hi => encode_of_expansion (expansion_of_isBus c hi) hi, ?_, ?_, ?_, ?_⟩
  · rintro code rfl
    exact carried rfl (decodeCmdCode_reserved hwf)
  · rintro rfl
    exact carried rfl (decodeCmdCode_pageErase c)
  · rintro rfl hv
    exact carried rfl (decodeCmdCode_wordWrite hv)
  · rintro rfl
    obtain ⟨T, hT, hdec⟩ := encode_of_expansion (c := c) (i := .enable) rfl rfl
    exact ⟨T, c.enableCode, hT, hdec, if_pos rfl⟩

/-- Settles O3: the decoder's branch is chosen by `sel` and `rw`, and no operand of these operations is a field
they ignore; the encoder packs zero there. -/
theorem ignoredBitsNeverMatter : Obligations.IgnoredBitsNeverMatter := by
  refine ⟨fun T T' hsel => ⟨fun h0 => ?_, fun hrw => ⟨?_, fun h3 hread => ?_, fun h4 hread hoff => ?_⟩⟩,
    fun d off T => ⟨?_, ?_, ?_, ?_⟩⟩
  · simp [decode, ← hsel, h0]
  · rintro (h1 | h2) hwrite hdata
    · simp [decode, ← hsel, ← hrw, ← hdata, h1, hwrite]
    · simp [decode, ← hsel, ← hrw, ← hdata, h2, hwrite]
  · simp [decode, ← hsel, ← hrw, h3, hread]
  · simp [decode, ← hsel, ← hrw, ← hoff, h4, hread]
  · rintro ⟨⟩
    simp
  · rintro (⟨⟨⟩⟩ | ⟨⟨⟩⟩)
    · exact offOf_pack ..
    · exact offOf_pack ..
  · rintro ⟨⟩
    simp
  · rintro ⟨⟩
    exact dataOf_pack ..

/-- Settles O4: fourteen fixed words, decoded by evaluation. -/
theorem specWordsDecode : Obligations.SpecWordsDecode := by
  unfold Obligations.SpecWordsDecode
  decide

/-! ### The address decoder (R83) -/

/-- The select of the region an address lies in. -/
def addrSel (c : Config) (addr : Nat) : BitVec 3 :=
  if c.InWindow addr then 0b100#3
  else if addr = c.cmdAddr then 0b001#3
  else if addr = c.protAddr then 0b010#3
  else if addr = c.statusAddr then 0b011#3
  else 0b000#3

/-- The offset an address selects: 0 outside the window (decision D3). -/
def addrOff (c : Config) (addr : Nat) : Offset :=
  if c.InWindow addr then BitVec.ofNat 10 (addr - c.flashMapBase) else 0#10

theorem addrDecode_eq_pack (c : Config) (rw : Bool) (addr : Nat) (data : Byte) :
    addrDecode c rw addr data = pack rw (addrSel c addr) (addrOff c addr) data := by
  unfold addrDecode addrSel addrOff
  split_ifs <;> rfl

theorem addrOff_toNat {c : Config} {addr : Nat} (hw : c.InWindow addr) :
    (addrOff c addr).toNat = addr - c.flashMapBase := by
  rw [addrOff, if_pos hw, BitVec.toNat_ofNat]
  simp only [Config.InWindow, flashBytes] at hw
  omega

/-- Settles O5: the word is packed from its four fields, and the constraints of R9 keep the regions apart. -/
theorem addressDecoderSelects : Obligations.AddressDecoderSelects := by
  intro c rw addr data hv
  simp only [addrDecode_eq_pack, rwOf_pack, selOf_pack, offOf_pack, dataOf_pack, true_and]
  refine ⟨fun hw => ⟨if_pos hw, addrOff_toNat hw⟩, fun hw => if_neg hw, ?_, ?_, ?_, fun hw hcmd hprot hstatus => ?_⟩
  · rintro rfl
    rw [addrSel, if_neg hv.cmdOutside, if_pos rfl]
  · rintro rfl
    rw [addrSel, if_neg hv.protOutside, if_neg hv.cmdNeProt.symm, if_pos rfl]
  · rintro rfl
    rw [addrSel, if_neg hv.statusOutside, if_neg hv.cmdNeStatus.symm, if_neg hv.protNeStatus.symm, if_pos rfl]
  · rw [addrSel, if_neg hw, if_neg hcmd, if_neg hprot, if_neg hstatus]

end Sys2Proof
end

section
/-! The address translator (R161 to R169): the fields of an offset put together give the offset, and an address is
`base + off` for exactly one offset. -/

namespace Sys2Proof.Machine

/-- BSEL as the number 0 or 1. -/
theorem bsel_toNat (off : Offset) : (bsel off).toNat = off.toNat % 2 := by
  rw [bsel_eq]
  rcases Nat.mod_two_eq_zero_or_one off.toNat with h | h
  · rw [h]; rfl
  · rw [h]; rfl

/-- R161: an offset is its three fields. -/
theorem toNat_eq_fields (off : Offset) :
    off.toNat = 16 * (paddr off).toNat + 2 * (waddr off).toNat + (bsel off).toNat := by
  rw [paddr_toNat, waddr_toNat, bsel_toNat]
  omega

theorem absAddr_eq {c : Config} {p w b : Nat} (hp : p ≤ 63) (hw : w ≤ 7) (hb : b ≤ 1) :
    absAddr c p w b = .ok (c.flashMapBase + 16 * p + 2 * w + b) := if_pos ⟨hp, hw, hb⟩

/-- R169, one half: geometry to address and back. -/
theorem flashOffset_geometry (c : Config) {p w b : Nat} (hp : p ≤ 63) (hw : w ≤ 7) (hb : b ≤ 1) :
    ∃ off, flashOffset c (c.flashMapBase + 16 * p + 2 * w + b) = .ok off ∧
      (paddr off).toNat = p ∧ (waddr off).toNat = w ∧ (bsel off).toNat = b := by
  have hoff : (BitVec.ofNat 10 (16 * p + 2 * w + b)).toNat = 16 * p + 2 * w + b := by
    rw [BitVec.toNat_ofNat]; omega
  refine ⟨BitVec.ofNat 10 (16 * p + 2 * w + b), flashOffset_eq_ok_iff.mpr ?_, ?_, ?_, ?_⟩
  · rw [hoff]; omega
  · rw [paddr_toNat, hoff]; omega
  · rw [waddr_toNat, hoff]; omega
  · rw [bsel_toNat, hoff]; omega

/-- R169, the other half: address to geometry and back. -/
theorem absAddr_of_flashOffset {c : Config} {addr : Nat} {off : Offset} (h : flashOffset c addr = .ok off) :
    absAddr c (paddr off).toNat (waddr off).toNat (bsel off).toNat = .ok addr := by
  have hlt := off.isLt
  have hfields := toNat_eq_fields off
  have hp := paddr_toNat off
  have hw := waddr_toNat off
  have hb := bsel_toNat off
  rw [absAddr_eq (by omega) (by omega) (by omega), flashOffset_eq_ok_iff.mp h, hfields]
  simp only [Nat.add_assoc]

/-- The reserved block begins 63 pages above the base (R165). -/
theorem blockBase_eq (c : Config) : blockBase c = c.flashMapBase + 1008 := by
  simp only [blockBase, flashBytes, pageBytes]
  omega

theorem blockAddress_eq {c : Config} {k : Nat} (hk : k ≤ 15) : blockAddress c k = .ok (blockBase c + k) := if_pos hk

/-- Settles O6: the two halves of R169, and the offset 1008 + k of the reserved block. -/
theorem translatorRoundTrips : Obligations.TranslatorRoundTrips := by
  intro c
  refine ⟨fun p w b hp hw hb => ?_, fun addr haddr => ?_, fun k hk => ?_⟩
  · obtain ⟨off, hoff⟩ := flashOffset_geometry c hp hw hb
    exact ⟨_, off, absAddr_eq hp hw hb, hoff⟩
  · obtain ⟨off, hoff⟩ := exists_flashOffset haddr
    exact ⟨off, hoff, absAddr_of_flashOffset hoff⟩
  · have hoff : (BitVec.ofNat 10 (1008 + k)).toNat = 1008 + k := by rw [BitVec.toNat_ofNat]; omega
    refine ⟨_, BitVec.ofNat 10 (1008 + k), blockAddress_eq hk, flashOffset_eq_ok_iff.mpr ?_, ?_⟩
    · rw [blockBase_eq, hoff, Nat.add_assoc]
    · rw [paddr_toNat, hoff]; omega

/-- Settles O7: each formula is the function's own branch, and the two equations of R161 are arithmetic on the
offset. -/
theorem translatorFormulas : Obligations.TranslatorFormulas := by
  refine ⟨fun off => ⟨toNat_eq_fields off, ?_⟩, fun c addr haddr => ?_, fun c p w b hp hw hb => absAddr_eq hp hw hb,
    fun c p hp => absAddr_eq hp (Nat.zero_le _) (Nat.zero_le _), fun c => ⟨blockBase_eq c, ?_⟩,
    fun c k hk => blockAddress_eq hk, fun c p w b hout => if_neg ?_, fun c k hk => if_neg (Nat.not_le.mpr hk),
    fun c addr haddr => if_neg haddr⟩
  · rw [wordIndex_toNat, paddr_toNat, waddr_toNat]; omega
  · obtain ⟨off, hoff⟩ := exists_flashOffset haddr
    exact ⟨off, hoff, by rw [flashOffset_eq_ok_iff.mp hoff, Nat.add_sub_cancel_left]⟩
  · exact absAddr_eq (Nat.le_refl _) (Nat.zero_le _) (Nat.zero_le _)
  · omega

/-- The window begins at a multiple of 16 (R9), so an address and its offset agree modulo 16. -/
theorem flashOffset_mod {c : Config} {addr : Nat} {off : Offset} (hv : c.Valid) (h : flashOffset c addr = .ok off) :
    off.toNat % 16 = addr % 16 := by
  have hbase := hv.baseAligned
  have haddr := flashOffset_eq_ok_iff.mp h
  simp only [pageBytes] at hbase
  omega

/-- Settles O8: WADDR and BSEL are bits of the offset modulo 16, which is that of the address. -/
theorem oddAddressIsHighByte : Obligations.OddAddressIsHighByte := by
  intro c addr hv haddr
  obtain ⟨off, hoff⟩ := exists_flashOffset haddr
  have hmod := flashOffset_mod hv hoff
  refine ⟨off, hoff, hmod, ?_, ?_, ?_⟩
  · rw [waddr_toNat]; omega
  · rw [bsel_toNat]; omega
  · rw [bsel_iff]; omega

end Sys2Proof.Machine
end

section
/-! What one bus cycle can do, said once and phase by phase: seven cases, which the invariant, the phase graph and
the frames below go through. -/

namespace Sys2Proof.Machine

/-! ### States with the same sequencer -/

/-- The two states agree in the parameters and in the sequencer; marks, flash, answer and the model's own fields
may differ. -/
structure SameSequencer (s t : State) : Prop where
  cfg   : t.cfg = s.cfg
  cmd   : t.cmd = s.cmd
  phase : t.phase = s.phase
  age   : t.age = s.age
  ew    : t.ew = s.ew
  lat   : t.lat = s.lat
  eff   : t.eff = s.eff
  tn    : t.tn = s.tn

/-- From `s` to `u` nothing happens but that marks may be set. -/
structure OnlyMarks (s u : State) : Prop where
  rule : RuleFrame s u
  same : SameSequencer s u

theorem SameSequencer.trans {s t u : State} (h : SameSequencer s t) (k : SameSequencer t u) : SameSequencer s u :=
  ⟨k.cfg.trans h.cfg, k.cmd.trans h.cmd, k.phase.trans h.phase, k.age.trans h.age, k.ew.trans h.ew,
    k.lat.trans h.lat, k.eff.trans h.eff, k.tn.trans h.tn⟩

theorem OnlyMarks.refl (s : State) : OnlyMarks s s := ⟨RuleFrame.refl s, ⟨rfl, rfl, rfl, rfl, rfl, rfl, rfl, rfl⟩⟩

theorem OnlyMarks.trans {s t u : State} (h : OnlyMarks s t) (k : OnlyMarks t u) : OnlyMarks s u :=
  ⟨h.rule.trans k.rule, h.same.trans k.same⟩

theorem markFault_onlyMarks (r : Fault) (s : State) : OnlyMarks s (markFault r s) :=
  ⟨markFault_rule r s, ⟨rfl, rfl, rfl, rfl, rfl, rfl, rfl, rfl⟩⟩

theorem markRefused_onlyMarks (r : Refusal) (s : State) : OnlyMarks s (markRefused r s) :=
  ⟨markRefused_rule r s, ⟨rfl, rfl, rfl, rfl, rfl, rfl, rfl, rfl⟩⟩

theorem refuseReserved_onlyMarks (d : Byte) (s : State) : OnlyMarks s (refuseReserved d s) :=
  ⟨refuseReserved_rule d s, by constructor <;> simp⟩

theorem endCycle_sameSequencer (a : Option Byte) (s : State) : SameSequencer s (endCycle a s) := by
  constructor <;> simp

/-- A cycle whose operation sets marks and nothing else only ages its window. -/
theorem OnlyMarks.onlyAges {s u : State} (h : OnlyMarks s u) : OnlyAges s (quietCycle u) :=
  quietCycle_onlyAges h.rule h.same.phase h.same.age h.same.ew h.same.lat h.same.cmd h.same.eff h.same.tn

/-- Outside Triggered a NOP ages like every other operation (R176, R177). -/
theorem nopCycle_eq_quietCycle {s : State} (hp : s.phase ≠ .triggered) : nopCycle s = quietCycle s := by
  have haging : aging true s = aging false s := by
    cases h : s.phase <;> simp only [aging, h]
    exact absurd h hp
  rw [nopCycle, quietCycle, haging]

/-! ### The seven cases of a bus cycle -/

/-- What the cycle of operation `i` in state `s` may be (R100). -/
inductive BusCycle (s : State) : Instr → State → Prop where
  /-- R101. -/
  | nop : BusCycle s .nop (endCycle none (aging true s))
  /-- R105, R106, R150, R151: in Idle or Busy, a cycle that only answers. -/
  | answer {i : Instr} (a : Option Byte) (hp : s.phase = .idle ∨ s.phase = .busy)
      (hi : i = .rdStatus ∨ ∃ off, i = .ldFlash off) : BusCycle s i (endCycle a s)
  /-- R102. -/
  | load (d : Byte) (hp : s.phase = .idle) (hd : legalCode s.cfg d = true) :
      BusCycle s (.wrCmd d) (endCycle none (loadCommand d s))
  /-- R104. -/
  | arm (hp : s.phase = .cmdLoaded) : BusCycle s (.wrProt s.cfg.enableCode) (endCycle none (armCommand s))
  /-- R121, R138. -/
  | trigger (off : Offset) (d : Byte) (e : Effect) (hp : s.phase = .armed) :
      BusCycle s (.stFlash off d) (endCycle none (trigger e s))
  /-- R137. -/
  | latch (off : Offset) (d : Byte) (hp : s.phase = .armed) (hc : s.cmd = s.cfg.wordWriteCode) (hl : s.lat = none)
      (he : bsel off = false) :
      BusCycle s (.stFlash off d) (quietCycle { s with lat := some { off := off, byte := d } })
  /-- Every other operation: marks, it may be, and the aging of the window. -/
  | quiet {i : Instr} {u : State} (hm : OnlyMarks s u) : BusCycle s i (quietCycle u)

/-- R108, R109: the cycle of an operation that is refused in every phase. -/
theorem refusedCycle_eq (r : Refusal) (s : State) :
    refusedCycle r s = if s.phase = .triggered then hazardCycle (markRefused r s) else quietCycle (markRefused r s) := by
  unfold refusedCycle
  split <;> simp [*]

/-- R103: the cycle of WR_CMD of a reserved code. -/
theorem wrCmdCycle_of_reserved {s : State} {d : Byte} (hd : legalCode s.cfg d = false) :
    wrCmdCycle d s =
      if s.phase = .triggered then hazardCycle (markRefused .reservedCommand s)
      else if s.phase = .busy then busyWriteCycle (markRefused .reservedCommand s)
      else quietCycle (markRefused .reservedCommand s) := by
  simp only [wrCmdCycle, hd, refuseReserved_reserved hd, cond_false]
  split <;> simp [*]

/-- The cases of a store in Armed (R121, R136 to R139). -/
theorem busCycle_armedStore (off : Offset) (d : Byte) {s : State} (hp : s.phase = .armed) :
    BusCycle s (.stFlash off d) (armedStoreCycle off d s) := by
  unfold armedStoreCycle
  split_ifs with herase hwrite
  · exact .trigger off d _ hp
  · unfold writeStoreCycle
    split
    next hfirst =>
      cases hl : s.lat with
      | none =>
        have he : bsel off = false := by simpa [writeStore, hl] using hfirst
        exact .latch off d hp hwrite hl he
      | some l => simp [writeStore, hl, apply_ite (· = WriteStore.first)] at hfirst
    next => exact .trigger off d _ hp
    next => exact .quiet (markFault_onlyMarks _ s)
  · exact .quiet (markRefused_onlyMarks _ s)

/-- Every cycle of a bus operation is one of the seven. -/
theorem busCycle_cycleOf {i : Instr} (hi : i.isBus = true) (s : State) : BusCycle s i (cycleOf i s) := by
  have interleaved {j : Instr} : BusCycle s j (interleavedCycle s) := .quiet (markRefused_onlyMarks _ s)
  have hazard {j : Instr} {u : State} (h : OnlyMarks s u) : BusCycle s j (hazardCycle u) :=
    .quiet (h.trans (markFault_onlyMarks _ u))
  have busyWrite {j : Instr} {u : State} (h : OnlyMarks s u) : BusCycle s j (busyWriteCycle u) :=
    .quiet (h.trans (markFault_onlyMarks _ u))
  have refused {j : Instr} (r : Refusal) : BusCycle s j (refusedCycle r s) := by
    rw [refusedCycle_eq]
    split_ifs
    · exact hazard (markRefused_onlyMarks r s)
    · exact .quiet (markRefused_onlyMarks r s)
  have reserved (d : Byte) := refuseReserved_onlyMarks d s
  cases i <;> simp only [Instr.isBus, Bool.false_eq_true] at hi <;> simp only [cycleOf]
  case nop => exact .nop
  case rdCmd => exact refused _
  case rdProt => exact refused _
  case wrStatus => exact refused _
  case rsvdSelOdd => exact refused _
  case rsvdSelSix => exact refused _
  case wrCmd d =>
    unfold wrCmdCycle
    cases hp : s.phase <;> simp only
    case triggered => exact hazard (reserved d)
    case busy => exact busyWrite (reserved d)
    all_goals cases hd : legalCode s.cfg d <;> simp only [cond_true, cond_false]
    case idle.true => exact .load d hp hd
    case cmdLoaded.true => exact interleaved
    case armed.true => exact interleaved
    all_goals exact .quiet (reserved d)
  case wrProt d =>
    unfold wrProtCycle
    cases hp : s.phase <;> simp only
    case idle => exact .quiet (OnlyMarks.refl s)
    case cmdLoaded =>
      split_ifs with hd
      · exact hd ▸ .arm hp
      · exact interleaved
    case armed => exact interleaved
    case triggered => exact hazard (OnlyMarks.refl s)
    case busy => exact busyWrite (OnlyMarks.refl s)
  case rdStatus =>
    unfold rdStatusCycle
    cases hp : s.phase <;> simp only
    case idle => exact .answer _ (.inl hp) (.inl rfl)
    case busy => exact .answer _ (.inr hp) (.inl rfl)
    case triggered => exact hazard (OnlyMarks.refl s)
    all_goals exact interleaved
  case ldFlash off =>
    unfold ldFlashCycle
    cases hp : s.phase <;> simp only
    case idle => exact .answer _ (.inl hp) (.inr ⟨off, rfl⟩)
    case busy => exact .answer _ (.inr hp) (.inr ⟨off, rfl⟩)
    case triggered => exact hazard (OnlyMarks.refl s)
    all_goals exact interleaved
  case stFlash off d =>
    unfold stFlashCycle
    cases hp : s.phase <;> simp only
    case armed => exact busCycle_armedStore off d hp
    case triggered => exact hazard (OnlyMarks.refl s)
    case busy => exact busyWrite (OnlyMarks.refl s)
    all_goals exact .quiet (markFault_onlyMarks _ s)

end Sys2Proof.Machine
end

section
/-! RESET (R220, R221), and the invariant of R35 through every step: kept by each shared operation of a cycle, so
by the seven cases of a bus cycle, by COMPLETE and RESET, and by every instruction. -/

namespace Sys2Proof.Machine

/-! ### RESET -/

/-- R220: RESET clears the sequencer and makes one draw; the marks and the flash are the rest of what it writes. -/
theorem resetStep_eq (s : State) :
    resetStep s = { clearSequencer s with
      fault := (resetStep s).fault
      flash := (resetStep s).flash
      draws := s.draws + 1 } := by
  obtain ⟨cfg, flash, cmd, phase, age, ew, lat, eff, tn, fault, refused, rdata, result, draws, agenda⟩ := s
  cases phase <;> cases fault <;> rfl

/-- R221: in Triggered and Busy RESET interrupts the flash operation. -/
theorem resetStep_fault (s : State) :
    (resetStep s).fault =
      if s.phase = .triggered ∨ s.phase = .busy then some (s.fault.getD .interrupted) else s.fault := by
  unfold resetStep
  cases s.phase <;> simp

theorem resetStep_flash_lost {s : State} (hf : (resetStep s).fault ≠ none) :
    (resetStep s).flash = Memory.unspecified s.draws := by
  obtain ⟨r, hr⟩ := Option.ne_none_iff_exists'.mp hf
  unfold resetStep at hr ⊢
  cases hp : s.phase <;> simp only [hp, unspecifyFlash_fault] at hr ⊢ <;> rw [unspecifyFlash_flash, hr] <;> rfl

theorem resetStep_get {s : State} (hf : (resetStep s).fault ≠ none) {a : Nat} (ha : a < flashBytes) :
    (resetStep s).flash.get a = Config.freeFlash s.draws a := by
  rw [resetStep_flash_lost hf, Memory.get_unspecified _ _ ha]

/-- Settles O11: the fields RESET clears and keeps are those of R220, its fault is R221's, and the flash is lost
with a fault and kept without. -/
theorem resetClearsSequencer : Obligations.ResetClearsSequencer := by
  intro s
  have hlost : s.phase = .triggered ∨ s.phase = .busy → (resetStep s).fault = some (s.fault.getD .interrupted) :=
    fun hp => by rw [resetStep_fault, if_pos hp]
  have hkept : s.phase = .idle ∨ s.phase = .cmdLoaded ∨ s.phase = .armed → (resetStep s).fault = s.fault := by
    rintro (hp | hp | hp) <;> simp [resetStep_fault, hp]
  refine ⟨resetStep s, rfl, ?_⟩
  rw [resetStep_eq]
  exact ⟨rfl, rfl, rfl, rfl, rfl, rfl, rfl, rfl, rfl, rfl, rfl, rfl, rfl,
    fun hp => ⟨hlost hp, fun off hoff => resetStep_get (by simp [hlost hp]) hoff⟩,
    fun hp => ⟨hkept hp, fun hf => resetStep_flash ((hkept hp).trans hf)⟩⟩

/-! ### The invariant phase by phase -/

/-- The invariant speaks of the sequencer, the parameters and the form of the flash alone. -/
theorem State.Inv.congr {s t : State} (h : s.Inv) (hs : SameSequencer s t) (hwf : t.flash.wf = true) : t.Inv where
  cfgValid := hs.cfg ▸ h.cfgValid
  flashWf := hwf
  cmdLoaded := by rw [hs.phase, hs.cfg, hs.cmd, hs.age]; exact h.cmdLoaded
  armed := by rw [hs.phase, hs.cfg, hs.cmd, hs.ew]; exact h.armed
  latched := by rw [hs.phase, hs.cfg, hs.cmd, hs.lat]; exact h.latched
  triggered := by rw [hs.phase, hs.tn]; exact h.triggered
  pending := by rw [hs.phase, hs.eff]; exact h.pending

theorem State.Inv.lat_eq_none {s : State} (h : s.Inv) (hp : s.phase ≠ .armed) : s.lat = none :=
  Option.eq_none_iff_forall_ne_some.mpr fun l hl => hp (h.latched l hl).1

theorem State.Inv.eff_eq_noEffect {s : State} (h : s.Inv) (ht : s.phase ≠ .triggered) (hb : s.phase ≠ .busy) :
    s.eff = .noEffect :=
  by_contra fun he => (h.pending he).elim ht hb

theorem State.inv_of_idle {s : State} (hv : s.cfg.Valid) (hwf : s.flash.wf = true) (hp : s.phase = .idle)
    (hl : s.lat = none) (he : s.eff = .noEffect) : s.Inv := by
  constructor <;> simp [*]

theorem State.inv_of_cmdLoaded {s : State} (hv : s.cfg.Valid) (hwf : s.flash.wf = true) (hp : s.phase = .cmdLoaded)
    (hc : legalCode s.cfg s.cmd = true) (ha : s.age < s.cfg.ceWindow) (hl : s.lat = none) (he : s.eff = .noEffect) :
    s.Inv := by
  constructor <;> simp [*]

theorem State.inv_of_armed {s : State} (hv : s.cfg.Valid) (hwf : s.flash.wf = true) (hp : s.phase = .armed)
    (hc : legalCode s.cfg s.cmd = true) (hw : 1 ≤ s.ew ∧ s.ew ≤ 4)
    (hl : ∀ l, s.lat = some l → s.cmd = s.cfg.wordWriteCode ∧ bsel l.off = false) (he : s.eff = .noEffect) :
    s.Inv := by
  constructor <;> simp_all

theorem State.inv_of_triggered {s : State} (hv : s.cfg.Valid) (hwf : s.flash.wf = true) (hp : s.phase = .triggered)
    (ht : 1 ≤ s.tn ∧ s.tn ≤ 2) (hl : s.lat = none) : s.Inv := by
  constructor <;> simp [*]

theorem State.inv_of_busy {s : State} (hv : s.cfg.Valid) (hwf : s.flash.wf = true) (hp : s.phase = .busy)
    (hl : s.lat = none) : s.Inv := by
  constructor <;> simp [*]

/-- Settles O9: every field is the one of `State.powerOn`, and Idle without latch and effect meets the invariant. -/
theorem powerOnMeetsInvariant : Obligations.PowerOnMeetsInvariant := by
  have hpowerOn : ∀ (c : Config) (init : Memory), c.Valid → init.wf = true → (State.powerOn c init).Inv :=
    fun _ _ hv hwf => State.inv_of_idle hv hwf rfl rfl rfl
  have htc0 : Config.tc0.Valid := by constructor <;> decide
  exact ⟨hpowerOn, fun c init => ⟨rfl, rfl, rfl, rfl, rfl, rfl, rfl, ⟨rfl, rfl⟩, rfl⟩,
    hpowerOn _ _ htc0 Memory.wf_nil⟩

/-! ### The invariant through the shared operations of a cycle -/

theorem State.Inv.ageCmdLoaded {s : State} (h : s.Inv) (hp : s.phase = .cmdLoaded) : (ageCmdLoaded s).Inv := by
  obtain ⟨hc, ha⟩ := h.cmdLoaded hp
  have hl := h.lat_eq_none (by simp [hp])
  have he := h.eff_eq_noEffect (by simp [hp]) (by simp [hp])
  unfold Machine.ageCmdLoaded
  split_ifs with hend
  · exact State.inv_of_idle h.cfgValid h.flashWf rfl hl he
  · exact State.inv_of_cmdLoaded h.cfgValid h.flashWf hp hc (Nat.lt_of_le_of_ne ha hend) hl he

theorem State.Inv.ageArmed {s : State} (h : s.Inv) (hp : s.phase = .armed) : (ageArmed s).Inv := by
  obtain ⟨hc, hlow, hhigh⟩ := h.armed hp
  have he := h.eff_eq_noEffect (by simp [hp]) (by simp [hp])
  unfold Machine.ageArmed
  split_ifs with hend
  · exact State.inv_of_idle h.cfgValid h.flashWf rfl rfl he
  · exact State.inv_of_armed h.cfgValid h.flashWf hp hc (by simp only; omega) (fun l hl => (h.latched l hl).2) he

theorem State.Inv.ageTriggered {s : State} (h : s.Inv) (hp : s.phase = .triggered) : (ageTriggered s).Inv := by
  obtain ⟨hlow, hhigh⟩ := h.triggered hp
  have hl := h.lat_eq_none (by simp [hp])
  unfold Machine.ageTriggered
  split_ifs with hend
  · exact State.inv_of_busy h.cfgValid h.flashWf rfl hl
  · exact State.inv_of_triggered h.cfgValid h.flashWf hp (by simp only; omega) hl

/-- R176 to R178 keep R35. -/
theorem State.Inv.aging {s : State} (h : s.Inv) (n : Bool) : (aging n s).Inv := by
  unfold Machine.aging
  cases hp : s.phase <;> simp only
  case idle => exact h
  case cmdLoaded => exact h.ageCmdLoaded hp
  case armed => exact h.ageArmed hp
  case triggered =>
    cases n
    · exact h
    · exact h.ageTriggered hp
  case busy => exact h

theorem State.Inv.endCycle {s : State} (h : s.Inv) (a : Option Byte) : (endCycle a s).Inv := by
  refine h.congr (endCycle_sameSequencer a s) ?_
  cases hf : s.fault with
  | none => rw [endCycle_clean a hf]; exact h.flashWf
  | some r => rw [endCycle_faulted a hf]; exact Memory.wf_unspecified _

theorem State.Inv.quietCycle {s : State} (h : s.Inv) : (quietCycle s).Inv := (h.aging false).endCycle none

theorem State.Inv.onlyMarks {s u : State} (h : s.Inv) (hm : OnlyMarks s u) : u.Inv :=
  h.congr hm.same (hm.rule.flash ▸ h.flashWf)

/-- A bus cycle keeps the invariant, in each of its seven cases. -/
theorem State.Inv.busCycle {s t : State} {i : Instr} (h : s.Inv) (hcycle : BusCycle s i t) : t.Inv := by
  have hv := h.cfgValid
  have hwf := h.flashWf
  cases hcycle
  case nop => exact (h.aging true).endCycle none
  case answer a hp ha => exact h.endCycle a
  case load d hp hd =>
    have he := h.eff_eq_noEffect (by simp [hp]) (by simp [hp])
    exact (State.inv_of_cmdLoaded (s := loadCommand d s) hv hwf rfl hd hv.windowPos rfl he).endCycle none
  case arm hp =>
    have he := h.eff_eq_noEffect (by simp [hp]) (by simp [hp])
    exact (State.inv_of_armed (s := armCommand s) hv hwf rfl (h.cmdLoaded hp).1 (by simp) nofun he).endCycle none
  case trigger off d e hp =>
    exact (State.inv_of_triggered (s := trigger e s) hv hwf rfl (by simp) rfl).endCycle none
  case latch off d hp hc hl heven =>
    have he := h.eff_eq_noEffect (by simp [hp]) (by simp [hp])
    obtain ⟨hlegal, hew⟩ := h.armed hp
    refine (State.inv_of_armed (s := { s with lat := some ⟨off, d⟩ }) hv hwf hp hlegal hew ?_ he).quietCycle
    rintro l ⟨⟩
    exact ⟨hc, heven⟩
  case quiet u hm => exact (h.onlyMarks hm).quietCycle

theorem State.Inv.completeStep {s : State} (h : s.Inv) (hc : s.canComplete = true) : (completeStep s).Inv := by
  have hl := h.lat_eq_none (by simp [(canComplete_iff.mp hc).1])
  exact State.inv_of_idle h.cfgValid (Memory.wf_apply s.eff h.flashWf) rfl hl rfl

theorem State.Inv.resetStep {s : State} (h : s.Inv) : (resetStep s).Inv := by
  have hwf : (Machine.resetStep s).flash.wf = true := by
    by_cases hf : (Machine.resetStep s).fault = none
    · rw [resetStep_flash hf]; exact h.flashWf
    · rw [resetStep_flash_lost hf]; exact Memory.wf_unspecified _
  rw [resetStep_eq]
  exact State.inv_of_idle h.cfgValid hwf rfl rfl rfl

/-- Every instruction keeps the invariant, the driver operations as the sequences of cycles they are. -/
theorem State.Inv.exec {s t : State} {i : Instr} (h : s.Inv) (hexec : exec i s = .next t) : t.Inv := by
  refine exec_induct (P := State.Inv) (fun s i hi h => h.busCycle (busCycle_cycleOf hi s)) (fun s hc h => h.completeStep hc)
    (fun s h => h.resetStep) (fun s v h => ?_) (fun s r h => h.onlyMarks (markRefused_onlyMarks r s)) s t i h hexec
  exact h.congr ⟨rfl, rfl, rfl, rfl, rfl, rfl, rfl, rfl⟩ h.flashWf

/-- Taking an event off the agenda touches nothing the invariant speaks of. -/
theorem State.Inv.fetch {s : State} (h : s.Inv) : s.fetch.2.Inv := by
  unfold State.fetch
  split
  · exact h
  · exact h.congr ⟨rfl, rfl, rfl, rfl, rfl, rfl, rfl, rfl⟩ h.flashWf

/-- Settles O10: a step is an instruction in the state with the next event taken off. -/
theorem everyStepKeepsInvariant : Obligations.EveryStepKeepsInvariant :=
  fun _ _ h hstep => h.fetch.exec hstep

end Sys2Proof.Machine
end

section
/-! The operations that are refused or are a fault (R103, R108 to R113, R139, R152): each is a cycle that sets its
marks and only ages the window. -/

namespace Sys2Proof.Machine

/-! ### What marks beside an aging leave -/

/-- Idle, Triggered and Busy do not age under an operation other than NOP. -/
theorem OnlyAges.phase_kept {s t : State} (h : OnlyAges s t)
    (hp : s.phase = .idle ∨ s.phase = .triggered ∨ s.phase = .busy) : t.phase = s.phase := (h.still hp).1

/-- Aging touches the latch in Armed alone. -/
theorem OnlyAges.lat_kept {s t : State} (h : OnlyAges s t) (hp : s.phase ≠ .armed) : t.lat = s.lat := by
  have hstill (hs : s.phase = .idle ∨ s.phase = .triggered ∨ s.phase = .busy) : t.lat = s.lat := by
    obtain ⟨-, -, -, hl⟩ := h.still hs
    exact hl
  cases hphase : s.phase with
  | idle => exact hstill (.inl hphase)
  | triggered => exact hstill (.inr (.inl hphase))
  | busy => exact hstill (.inr (.inr hphase))
  | cmdLoaded =>
    obtain ⟨-, -, hl, -⟩ := h.cmdLoaded hphase
    exact hl
  | armed => exact absurd hphase hp

theorem legalCode_eq_false {c : Config} {d : Byte} (h1 : d ≠ c.pageEraseCode) (h2 : d ≠ c.wordWriteCode) :
    legalCode c d = false := by
  simp [legalCode, h1, h2]

theorem markRefused_quiet (r : Refusal) (s : State) : OnlyAges s (quietCycle (markRefused r s)) :=
  (markRefused_onlyMarks r s).onlyAges

theorem markFault_quiet (r : Fault) {s u : State} (h : OnlyMarks s u) : OnlyAges s (quietCycle (markFault r u)) :=
  (h.trans (markFault_onlyMarks r u)).onlyAges

/-- A cycle that sets a fault leaves every flash byte a free value (R43). -/
theorem quietCycle_get_of_fault {s u : State} (h : OnlyMarks s u) (r : Fault) {a : Nat} (ha : a < flashBytes) :
    (quietCycle (markFault r u)).flash.get a = Config.freeFlash s.draws a := by
  have hrule := (h.trans (markFault_onlyMarks r u)).rule
  rw [((quietCycle_frame hrule).flashLost (by simp)).1, Memory.get_unspecified _ _ ha]

/-! ### The operations that are refused in every phase -/

/-- Settles O20: a reserved code is a refusal mark, with a fault mark beside it in Triggered and Busy. -/
theorem wrCmdRefusesReservedCode : Obligations.WrCmdRefusesReservedCode := by
  intro s d hne1 hne2
  refine ⟨_, exec_bus rfl s, ?_⟩
  rw [cycleOf, wrCmdCycle_of_reserved (legalCode_eq_false hne1 hne2)]
  have hmark := markRefused_onlyMarks .reservedCommand s
  split_ifs with htriggered hbusy
  · exact ⟨by simp [hazardCycle], fun _ => by simp [hazardCycle], fun hp => by simp [hp] at htriggered,
      fun hp => absurd htriggered hp, markFault_quiet _ hmark⟩
  · exact ⟨by simp [busyWriteCycle], fun hp => absurd hp htriggered, fun _ => by simp [busyWriteCycle],
      fun _ hp => absurd hbusy hp, markFault_quiet _ hmark⟩
  · exact ⟨by simp, fun hp => absurd hp htriggered, fun hp => absurd hp hbusy, fun _ _ => by simp, hmark.onlyAges⟩

/-- R108, R109: the marks of an operation that is refused in every phase. -/
theorem refusedCycle_marks (r : Refusal) (s : State) :
    (refusedCycle r s).refused = some (s.refused.getD r) ∧
      (s.phase = .triggered → (refusedCycle r s).fault = some (s.fault.getD .hazardViolation)) ∧
      (s.phase ≠ .triggered → (refusedCycle r s).fault = s.fault) ∧ OnlyAges s (refusedCycle r s) := by
  rw [refusedCycle_eq]
  have hmark := markRefused_onlyMarks r s
  split_ifs with htriggered
  · exact ⟨by simp [hazardCycle], fun _ => by simp [hazardCycle], fun hp => absurd htriggered hp,
      markFault_quiet _ hmark⟩
  · exact ⟨by simp, fun hp => absurd hp htriggered, fun _ => by simp, hmark.onlyAges⟩

/-- Settles O24: all five forms are one refused cycle, each with its reason. -/
theorem refusedOperationsMarkOnly : Obligations.RefusedOperationsMarkOnly := by
  rintro s i r (⟨rfl | rfl, rfl⟩ | ⟨⟨d, rfl⟩, rfl⟩ | ⟨⟨mid, rfl⟩ | rfl, rfl⟩)
  all_goals exact ⟨_, exec_bus rfl s, refusedCycle_marks _ s⟩

/-! ### CmdLoaded and Armed (R111) -/

/-- In CmdLoaded and Armed every operation but NOP, the enable write in CmdLoaded and a store is a refusal mark;
the reason is Interleaved where the operation has no reason of its own. -/
theorem cycleOf_of_pending {s : State} {i : Instr} (hi : i.isBus = true) (hnop : i ≠ .nop)
    (hstore : ∀ off d, i ≠ .stFlash off d)
    (hp : (s.phase = .cmdLoaded ∧ i ≠ .wrProt s.cfg.enableCode) ∨ s.phase = .armed) :
    ∃ r, cycleOf i s = quietCycle (markRefused r s) ∧
      ((∃ d, i = .wrCmd d ∧ legalCode s.cfg d = true) ∨ (∃ d, i = .wrProt d) ∨ i = .rdStatus ∨
        (∃ off, i = .ldFlash off) → r = .interleaved) := by
  have hphase : s.phase = .cmdLoaded ∨ s.phase = .armed := hp.imp_left And.left
  have hrefused (r : Refusal) : refusedCycle r s = quietCycle (markRefused r s) := by
    rw [refusedCycle_eq, if_neg (by rcases hphase with h | h <;> simp [h])]
  cases i <;> simp only [Instr.isBus, Bool.false_eq_true] at hi <;> simp only [cycleOf]
  case nop => exact absurd rfl hnop
  case stFlash off d => exact absurd rfl (hstore off d)
  case rdCmd => exact ⟨_, hrefused _, by simp⟩
  case rdProt => exact ⟨_, hrefused _, by simp⟩
  case wrStatus => exact ⟨_, hrefused _, by simp⟩
  case rsvdSelOdd => exact ⟨_, hrefused _, by simp⟩
  case rsvdSelSix => exact ⟨_, hrefused _, by simp⟩
  case wrCmd d =>
    cases hd : legalCode s.cfg d with
    | false =>
      refine ⟨.reservedCommand, ?_, by simp [hd]⟩
      rw [wrCmdCycle_of_reserved hd, if_neg (by rcases hphase with h | h <;> simp [h]),
        if_neg (by rcases hphase with h | h <;> simp [h])]
    | true =>
      refine ⟨.interleaved, ?_, fun _ => rfl⟩
      rcases hphase with h | h <;> simp [wrCmdCycle, h, hd, interleavedCycle]
  case wrProt d =>
    refine ⟨.interleaved, ?_, fun _ => rfl⟩
    rcases hp with ⟨h, hne⟩ | h
    · have hd : d ≠ s.cfg.enableCode := fun hd => hne (hd ▸ rfl)
      simp [wrProtCycle, h, hd, interleavedCycle]
    · simp [wrProtCycle, h, interleavedCycle]
  case rdStatus =>
    refine ⟨.interleaved, ?_, fun _ => rfl⟩
    rcases hphase with h | h <;> simp [rdStatusCycle, h, interleavedCycle]
  case ldFlash off =>
    refine ⟨.interleaved, ?_, fun _ => rfl⟩
    rcases hphase with h | h <;> simp [ldFlashCycle, h, interleavedCycle]

/-- Settles O25: the cycle is one refusal mark and the aging of the window. -/
theorem interleavedOperationsRefused : Obligations.InterleavedOperationsRefused := by
  intro s i hi hnop hstore hp
  obtain ⟨r, hcycle, hreason⟩ := cycleOf_of_pending hi hnop hstore hp
  refine ⟨_, exec_bus hi s, ?_⟩
  rw [hcycle]
  refine ⟨by simp, by simp, markRefused_quiet r s, fun hkind => ?_⟩
  simp only [legalCode_iff] at hreason
  rw [quietCycle_refused, markRefused_refused, hreason hkind]

/-! ### Triggered (R112) -/

/-- In Triggered every operation but NOP is the hazard, beside the refusal it may be. -/
theorem cycleOf_of_triggered {s : State} {i : Instr} (hi : i.isBus = true) (hnop : i ≠ .nop)
    (hp : s.phase = .triggered) : ∃ u, OnlyMarks s u ∧ u.fault = s.fault ∧ cycleOf i s = hazardCycle u := by
  have hself : ∃ u, OnlyMarks s u ∧ u.fault = s.fault ∧ hazardCycle s = hazardCycle u :=
    ⟨s, OnlyMarks.refl s, rfl, rfl⟩
  have hrefused (r : Refusal) : ∃ u, OnlyMarks s u ∧ u.fault = s.fault ∧ refusedCycle r s = hazardCycle u :=
    ⟨_, markRefused_onlyMarks r s, rfl, by rw [refusedCycle_eq, if_pos hp]⟩
  cases i <;> simp only [Instr.isBus, Bool.false_eq_true] at hi <;>
    simp only [cycleOf, wrProtCycle, rdStatusCycle, ldFlashCycle, stFlashCycle, hp]
  case nop => exact absurd rfl hnop
  case wrCmd d => exact ⟨_, refuseReserved_onlyMarks d s, by simp, by simp only [wrCmdCycle, hp]⟩
  case wrProt | rdStatus | ldFlash | stFlash => exact hself
  all_goals exact hrefused _

/-- Settles O26: the cycle is the hazard's, which ages nothing in Triggered. -/
theorem triggeredAdmitsOnlyNop : Obligations.TriggeredAdmitsOnlyNop := by
  intro s i hi hnop hp
  obtain ⟨u, hmark, hfault, hcycle⟩ := cycleOf_of_triggered hi hnop hp
  have hages : OnlyAges s (hazardCycle u) := markFault_quiet _ hmark
  refine ⟨_, exec_bus hi s, ?_⟩
  rw [hcycle]
  exact ⟨by simp [hazardCycle, hfault], (hages.phase_kept (.inr (.inl hp))).trans hp, hages.tn, hages.eff, hages.cmd⟩

/-! ### Busy (R113) -/

/-- In Busy a write is the violation, beside the refusal it may be. -/
theorem exec_write_of_busy {s : State} {i : Instr} (hp : s.phase = .busy)
    (hi : (∃ d, i = .wrCmd d) ∨ (∃ d, i = .wrProt d) ∨ (∃ off d, i = .stFlash off d)) :
    ∃ u, OnlyMarks s u ∧ u.fault = s.fault ∧ exec i s = .next (busyWriteCycle u) := by
  rcases hi with ⟨d, rfl⟩ | ⟨d, rfl⟩ | ⟨off, d, rfl⟩ <;> rw [exec_bus rfl]
  · exact ⟨_, refuseReserved_onlyMarks d s, by simp, by simp only [cycleOf, wrCmdCycle, hp]⟩
  · exact ⟨s, OnlyMarks.refl s, rfl, by simp only [cycleOf, wrProtCycle, hp]⟩
  · exact ⟨s, OnlyMarks.refl s, rfl, by simp only [cycleOf, stFlashCycle, hp]⟩

/-- In Busy NOP, RD_STATUS and LD_FLASH only answer. -/
theorem cycleOf_answer_of_busy {s : State} {i : Instr} (hp : s.phase = .busy)
    (hi : i = .nop ∨ i = .rdStatus ∨ ∃ off, i = .ldFlash off) : ∃ a, cycleOf i s = endCycle a s := by
  rcases hi with rfl | rfl | ⟨off, rfl⟩
  · exact ⟨none, by rw [cycleOf, nopCycle, aging_busy _ hp]⟩
  · exact ⟨_, by rw [cycleOf, rdStatusCycle_of_idle_or_busy (.inr hp)]⟩
  · exact ⟨_, by rw [cycleOf, ldFlashCycle_of_busy off hp]⟩

/-- In Busy every other operation is a refusal. -/
theorem cycleOf_refused_of_busy {s : State} {i : Instr} (hi : i.isBus = true) (hp : s.phase = .busy)
    (hwrite : ¬ ((∃ d, i = .wrCmd d) ∨ (∃ d, i = .wrProt d) ∨ (∃ off d, i = .stFlash off d)))
    (hanswer : ¬ (i = .nop ∨ i = .rdStatus ∨ ∃ off, i = .ldFlash off)) :
    ∃ r, cycleOf i s = quietCycle (markRefused r s) := by
  have hrefused (r : Refusal) : refusedCycle r s = quietCycle (markRefused r s) := by
    rw [refusedCycle_eq, if_neg (by simp [hp])]
  cases i <;> simp [Instr.isBus] at hi hwrite hanswer
  all_goals exact ⟨_, hrefused _⟩

/-- Settles O27: a write sets a fault, an operation that only answers sets no mark, and any other is refused. -/
theorem busyAdmitsNoWrite : Obligations.BusyAdmitsNoWrite := by
  refine ⟨fun s i hp hi => ?_, fun s i hp hclean hi => ?_⟩
  · obtain ⟨u, hmark, hfault, hexec⟩ := exec_write_of_busy hp hi
    have hages : OnlyAges s (busyWriteCycle u) := markFault_quiet _ hmark
    exact ⟨_, hexec, by simp [busyWriteCycle, hfault], (hages.phase_kept (.inr (.inr hp))).trans hp,
      hages.eff, hages.cmd⟩
  by_cases hwrite : (∃ d, i = .wrCmd d) ∨ (∃ d, i = .wrProt d) ∨ (∃ off d, i = .stFlash off d)
  · obtain ⟨u, -, -, hexec⟩ := exec_write_of_busy hp hwrite
    refine ⟨_, hexec, iff_of_false (fun h => by simp [State.Clean, busyWriteCycle] at h) ?_⟩
    rcases hwrite with ⟨d, rfl⟩ | ⟨d, rfl⟩ | ⟨off, d, rfl⟩ <;> simp
  by_cases hanswer : i = .nop ∨ i = .rdStatus ∨ ∃ off, i = .ldFlash off
  · obtain ⟨a, hcycle⟩ := cycleOf_answer_of_busy hp hanswer
    exact ⟨_, exec_bus hi s, iff_of_true (by simpa [State.Clean, hcycle] using hclean) hanswer⟩
  · obtain ⟨r, hcycle⟩ := cycleOf_refused_of_busy hi hp hwrite hanswer
    refine ⟨_, exec_bus hi s, iff_of_false (fun h => ?_) hanswer⟩
    simp [State.Clean, hcycle] at h

/-! ### Stores that are faults (R139, R152) -/

/-- Settles O33: without an armed command the store is a fault mark and the aging of the window. -/
theorem unarmedStoreFaults : Obligations.UnarmedStoreFaults := by
  intro s off d hp
  have hcycle : cycleOf (.stFlash off d) s = quietCycle (markFault .unarmedFlashStore s) := by
    rcases hp with hp | hp <;> simp only [cycleOf, stFlashCycle, hp, unarmedCycle]
  have hages : OnlyAges s (quietCycle (markFault .unarmedFlashStore s)) := markFault_quiet _ (OnlyMarks.refl s)
  have hlat := hages.lat_kept (by rcases hp with hp | hp <;> simp [hp])
  refine ⟨_, exec_bus rfl s, ?_⟩
  rw [hcycle]
  exact ⟨by simp, by simp, hages.cmd, hages.eff, hlat, fun a ha => quietCycle_get_of_fault (OnlyMarks.refl s) _ ha⟩

theorem writeStore_malformed {lat : Option Latch} {off : Offset} (d : Byte)
    (h : (lat = none ∧ bsel off = true) ∨ ∃ l, lat = some l ∧ off.toNat ≠ l.off.toNat + 1) :
    writeStore lat off d = .malformed := by
  rcases h with ⟨rfl, hodd⟩ | ⟨l, rfl, hne⟩
  · exact if_pos hodd
  · exact if_neg hne

/-- Settles O37: the store is malformed, which is a fault mark and the aging of the window. -/
theorem otherStoresAreMalformed : Obligations.OtherStoresAreMalformed := by
  intro s off d hv hp hc hbad
  have hcycle : cycleOf (.stFlash off d) s = quietCycle (markFault .malformedWrite s) := by
    rw [cycleOf, stFlashCycle_write_of_armed off d hv hp hc, writeStoreCycle, writeStore_malformed d hbad]
  refine ⟨_, exec_bus rfl s, ?_⟩
  rw [hcycle]
  exact ⟨by simp, by simp, by simp, by simp, fun a ha => quietCycle_get_of_fault (OnlyMarks.refl s) _ ha⟩

end Sys2Proof.Machine
end

section
/-! The aging of the windows (R176 to R178), the operations that leave the block alone (R105, R181), and the code
rows as the register operations that carry them (R87 to R89). -/

namespace Sys2Proof.Machine

/-! ### NOP (R101, R178, R181) -/

/-- Settles O13: Idle and Busy do not age. -/
theorem nopInIdleAndBusyChangesNothing : Obligations.NopInIdleAndBusyChangesNothing := by
  intro s hf hp
  have haging : aging true s = s := hp.elim (aging_idle true) (aging_busy true)
  rw [exec_bus rfl, cycleOf, nopCycle_clean s hf, haging]

/-- R178 as one update: what is still owed decides the phase. -/
theorem aging_true_triggered {s : State} (hp : s.phase = .triggered) :
    aging true s = { s with tn := s.tn - 1, phase := if s.tn - 1 = 0 then .busy else .triggered } := by
  by_cases htn : s.tn - 1 = 0
  · simp [aging, hp, ageTriggered, htn]
  · simp [aging, hp, ageTriggered, htn]

/-- Settles O18: the cycle of a NOP in Triggered is R178's aging and a drawn answer. -/
theorem nopPaysTriggeredCycles : Obligations.NopPaysTriggeredCycles := by
  intro s hf hp
  rw [exec_bus rfl, cycleOf, nopCycle_clean s hf, aging_true_triggered hp]

/-! ### The windows (R176, R177) -/

/-- Outside Triggered a NOP only ages the window. -/
theorem nop_onlyAges {s : State} (hp : s.phase ≠ .triggered) : OnlyAges s (endCycle none (aging true s)) := by
  have h := (OnlyMarks.refl s).onlyAges
  rwa [← nopCycle_eq_quietCycle hp] at h

/-- R176: in CmdLoaded every operation but the enable write only ages the window. -/
theorem BusCycle.onlyAges_of_cmdLoaded {s t : State} {i : Instr} (h : BusCycle s i t) (hp : s.phase = .cmdLoaded)
    (hi : i ≠ .wrProt s.cfg.enableCode) : OnlyAges s t := by
  cases h with
  | nop => exact nop_onlyAges (by simp [hp])
  | answer a hp' => simp [hp] at hp'
  | load d hp' => simp [hp] at hp'
  | arm => exact absurd rfl hi
  | trigger off d e hp' => simp [hp] at hp'
  | latch off d hp' => simp [hp] at hp'
  | quiet hm => exact hm.onlyAges

/-- Settles O14: such a cycle only ages the window, and R176 says how. -/
theorem commandWindowAges : Obligations.CommandWindowAges := by
  intro s i hi hp hne
  have hages := (busCycle_cycleOf hi s).onlyAges_of_cmdLoaded hp hne
  obtain ⟨hage, hew, hlat, hphase⟩ := hages.cmdLoaded hp
  exact ⟨_, exec_bus hi s, hage, hages.cmd, hphase, hew, hlat, hages.eff, hages.tn⟩

/-- What R177 says of a cycle in Armed that is no trigger. -/
theorem OnlyAges.armed_cases {s t : State} (h : OnlyAges s t) (hp : s.phase = .armed) :
    t.ew = s.ew - 1 ∧ t.age = s.age ∧ (s.ew - 1 = 0 → t.phase = .idle ∧ t.lat = none) ∧
      (s.ew - 1 ≠ 0 → t.phase = .armed ∧ t.lat = s.lat) := by
  obtain ⟨hage, hew, hphase, hlat⟩ := h.armed hp
  exact ⟨hew, hage, fun h0 => ⟨by rw [hphase, if_pos h0], by rw [hlat, if_pos h0]⟩,
    fun h0 => ⟨by rw [hphase, if_neg h0], by rw [hlat, if_neg h0]⟩⟩

/-- R100, R121, R137, R138: a cycle in Armed is a trigger, or only ages the window, with the latch `l` the first
store of a word write has set in it. -/
theorem BusCycle.cases_of_armed {s t : State} {i : Instr} (h : BusCycle s i t) (hp : s.phase = .armed) :
    (t.phase = .triggered ∧ ∃ off d, i = .stFlash off d) ∨
    ∃ l, OnlyAges { s with lat := l } t ∧ (l = s.lat ∨ s.cmd = s.cfg.wordWriteCode ∧ s.lat = none ∧
      ∃ off d, i = .stFlash off d ∧ bsel off = false) := by
  cases h with
  | nop => exact .inr ⟨s.lat, nop_onlyAges (by simp [hp]), .inl rfl⟩
  | answer a hp' => simp [hp] at hp'
  | load d hp' => simp [hp] at hp'
  | arm hp' => simp [hp] at hp'
  | trigger off d e => exact .inl ⟨by simp, off, d, rfl⟩
  | latch off d _ hc hl heven =>
    exact .inr ⟨_, (OnlyMarks.refl _).onlyAges, .inr ⟨hc, hl, off, d, rfl, heven⟩⟩
  | quiet hm => exact .inr ⟨s.lat, hm.onlyAges, .inl rfl⟩

/-- Settles O16: a cycle that is no trigger only ages the window, and it ages the latch it found but for the first
store of a word write. -/
theorem triggerWindowAges : Obligations.TriggerWindowAges := by
  intro s i hi hp
  have hflash := (cycleOf_frame hi s).flashKept
  refine ⟨_, exec_bus hi s, ?_⟩
  rcases (busCycle_cycleOf hi s).cases_of_armed hp with ⟨htrigger, hstore⟩ | ⟨l, hages, hlatch⟩
  · exact ⟨fun hne => absurd htrigger hne, fun _ => hstore, hflash⟩
  obtain ⟨hew, hage, hclosed, hopen⟩ := hages.armed_cases hp
  refine ⟨fun _ => ⟨hew, hages.cmd, hages.eff, hages.tn, hage, hclosed, fun h0 => ⟨(hopen h0).1, fun hother => ?_⟩⟩,
    fun htrigger => ?_, hflash⟩
  · rcases hlatch with rfl | ⟨hc, hl, off, d, rfl, heven⟩
    · exact (hopen h0).2
    · rcases hother off d rfl with h | h | h
      · exact absurd hc h
      · exact absurd hl h
      · simp [heven] at h
  · by_cases h0 : s.ew - 1 = 0
    · simp [(hclosed h0).1] at htrigger
    · simp [(hopen h0).1] at htrigger

/-! ### WR_PROT in Idle (R105) -/

/-- Settles O22: in Idle WR_PROT is a quiet cycle, and Idle does not age. -/
theorem wrProtInIdleHasNoEffect : Obligations.WrProtInIdleHasNoEffect := by
  intro s d hf hp
  have hcycle : wrProtCycle d s = quietCycle s := by simp only [wrProtCycle, hp]
  rw [exec_bus rfl, cycleOf, hcycle, quietCycle_still (.inl hp), endCycle_clean none hf, Option.getD_none]

/-! ### The code rows (R87 to R89) -/

/-- A code row of CMD does what WR_CMD of its byte does. -/
theorem exec_decodeCmdCode (s : State) (d : Byte) : exec (decodeCmdCode s.cfg d) s = exec (.wrCmd d) s := by
  unfold decodeCmdCode
  split_ifs with herase hwrite
  · rw [herase]; rfl
  · rw [hwrite]; rfl
  · rfl

/-- In Idle a reserved code is the refusal mark alone (R103). -/
theorem exec_wrCmd_reserved_of_idle {s : State} {d : Byte} (hd : legalCode s.cfg d = false) (hf : s.fault = none)
    (hp : s.phase = .idle) :
    exec (.wrCmd d) s = .next { s with
      refused := some (s.refused.getD .reservedCommand)
      rdata := Config.freeByte s.draws
      draws := s.draws + 1 } := by
  have hcycle : wrCmdCycle d s = endCycle none (markRefused .reservedCommand s) := by
    rw [wrCmdCycle_of_reserved hd, if_neg (by simp [hp]), if_neg (by simp [hp])]
    exact quietCycle_still (s := markRefused .reservedCommand s) (.inl hp)
  have hmark : (markRefused .reservedCommand s).fault = none := hf
  rw [exec_bus rfl, cycleOf, hcycle, endCycle_clean none hmark]
  rfl

/-- Settles O28: a code row is its WR_CMD, which in Idle loads the legal codes (R102) and refuses the others. -/
theorem commandCodesAreWrCmdData : Obligations.CommandCodesAreWrCmdData := by
  refine ⟨exec_decodeCmdCode, fun s hf hp => ⟨?_, ?_, fun code hcode => ?_⟩⟩
  · exact wrCmdLoadsLegalCode s _ hf hp (.inl rfl)
  · exact wrCmdLoadsLegalCode s _ hf hp (.inr rfl)
  · simp only [Instr.wellFormed, Bool.and_eq_true, bne_iff_ne] at hcode
    exact exec_wrCmd_reserved_of_idle (legalCode_eq_false hcode.1 hcode.2) hf hp

/-- Settles O29: the one PROT code is WR_PROT of the enable code, which arms in CmdLoaded (R104). -/
theorem enableCodeArms : Obligations.EnableCodeArms := by
  refine ⟨fun s d i h => ?_, wrProtArmsCommand⟩
  unfold decodeProtCode at h
  split_ifs at h with hd
  cases h
  rw [hd]
  rfl

/-- R106 where RD_STATUS has an answer and no fault is set. -/
theorem rdStatusCycle_clean {s : State} (hf : s.fault = none) (hp : s.phase = .idle ∨ s.phase = .busy) :
    rdStatusCycle s = { s with rdata := s.status, draws := s.draws + 1 } := by
  rw [rdStatusCycle_of_idle_or_busy hp, endCycle_clean _ hf, Option.getD_some]

/-- R89: the one defined field of the status byte is BUSY. -/
theorem decodeStatusByte_status (s : State) : decodeStatusByte s.cfg s.status = decide (s.phase = .busy) := by
  rw [decodeStatusByte, State.status_bit, if_pos rfl]

/-- Settles O30: RD_STATUS answers the status byte, whose one defined field is what software keeps. -/
theorem busyFieldRead : Obligations.BusyFieldRead := by
  intro s hf hp
  refine ⟨s.status, ?_, decodeStatusByte_status s⟩
  simp only [exec, execBusy, rdStatusCycle_clean hf hp, keepBusy, State.readsBusy, decodeStatusByte_status]
  rcases hp with hp | hp <;> simp [hp]

/-! ### COMPLETE (R179) -/

theorem canComplete_eq_false {s : State} (h : s.phase ≠ .busy ∨ s.fault ≠ none) : s.canComplete = false :=
  Bool.eq_false_iff.mpr fun hc => h.elim (· (canComplete_iff.mp hc).1) (· (canComplete_iff.mp hc).2)

/-- Settles O40: with nothing to apply COMPLETE writes the effect and the phase alone, and it is refused where it
is not enabled. -/
theorem completeOnlyWhenEnabled : Obligations.CompleteOnlyWhenEnabled := by
  refine ⟨fun s hp hf he => ?_, fun s h => ?_⟩
  · rw [exec_complete_of_enabled hp hf, completeStep, he]
    rfl
  · rw [exec, execComplete, canComplete_eq_false h, cond_false]

end Sys2Proof.Machine
end

section
/-! What every instruction leaves alone: the marks, the parameters and the agenda over all instructions; the phase,
CMD, the effect, the latch and the flash over the cases of a bus cycle. -/

namespace Sys2Proof.Machine

/-! ### Over every instruction -/

/-- Settles O42: each mark is kept by every cycle, by COMPLETE and by RESET, so by every instruction. -/
theorem marksKeepFirstReason : Obligations.MarksKeepFirstReason := by
  intro s t i h
  refine ⟨fun r hr => ?_, fun r hr => ?_⟩
  · refine exec_induct (P := fun u => u.fault = some r) (fun u j hj hu => (cycleOf_frame hj u).faultKept r hu)
      (fun u _ hu => hu) (fun u hu => ?_) (fun u v hu => hu) (fun u m hu => hu) s t i hr h
    rw [resetStep_fault, hu]
    exact ite_self _
  · refine exec_induct (P := fun u => u.refused = some r) (fun u j hj hu => (cycleOf_frame hj u).refusedKept r hu)
      (fun u _ hu => hu) (fun u hu => ?_) (fun u v hu => hu) (fun u m hu => (markRefused_rule m u).refusedKept r hu)
      s t i hr h
    rw [resetStep_eq]
    exact hu

/-- Settles O46: every cycle, COMPLETE and RESET keep the parameters and the agenda, so every instruction does. -/
theorem parametersNeverChange : Obligations.ParametersNeverChange := by
  intro s t i h
  refine exec_induct (P := fun u => u.cfg = s.cfg ∧ u.agenda = s.agenda) (fun u j hj hu => ?_)
    (fun u _ hu => hu) (fun u hu => ?_) (fun u v hu => hu) (fun u m hu => hu) s t i ⟨rfl, rfl⟩ h
  · have hframe := cycleOf_frame hj u
    exact ⟨hframe.cfg.trans hu.1, hframe.agenda.trans hu.2⟩
  · rw [resetStep_eq]
    exact hu

/-- Settles O43: with a fault the end of a cycle, and RESET, draw every flash byte anew; the end of a cycle draws
the answer too. -/
theorem faultUnspecifiesFlash : Obligations.FaultUnspecifiesFlash := by
  rintro s t i (hi | rfl) h hf
  · rw [exec_bus hi, Host.Outcome.next.injEq] at h
    subst h
    obtain ⟨hflash, hrdata⟩ := (cycleOf_frame hi s).flashLost hf
    exact ⟨fun a ha => by rw [hflash, Memory.get_unspecified _ _ ha], fun _ => hrdata⟩
  · obtain rfl := Host.Outcome.next.inj h
    exact ⟨fun a ha => resetStep_get hf ha, nofun⟩

/-! ### The phase graph (R182) -/

/-- A cycle that only ages keeps the phase or lapses its window. -/
theorem OnlyAges.phaseEdge {s t : State} (h : OnlyAges s t) (i : Instr) :
    t.phase = s.phase ∨ PhaseEdge s.cfg s.phase i t.phase := by
  cases hp : s.phase with
  | idle => exact .inl ((h.phase_kept (.inl hp)).trans hp)
  | triggered => exact .inl ((h.phase_kept (.inr (.inl hp))).trans hp)
  | busy => exact .inl ((h.phase_kept (.inr (.inr hp))).trans hp)
  | cmdLoaded =>
    obtain ⟨-, -, -, hphase⟩ := h.cmdLoaded hp
    rw [hphase]
    split_ifs
    · exact .inr (.lapseCmdLoaded i)
    · exact .inl rfl
  | armed =>
    obtain ⟨-, -, hphase, -⟩ := h.armed hp
    rw [hphase]
    split_ifs
    · exact .inr (.lapseArmed i)
    · exact .inl rfl

theorem BusCycle.phaseEdge {s t : State} {i : Instr} (h : BusCycle s i t) :
    t.phase = s.phase ∨ PhaseEdge s.cfg s.phase i t.phase := by
  cases h with
  | nop =>
    by_cases hp : s.phase = .triggered
    · rw [endCycle_phase, aging_true_triggered hp, hp]
      by_cases htn : s.tn - 1 = 0
      · exact .inr (by rw [if_pos htn]; exact .start)
      · exact .inl (if_neg htn)
    · exact (nop_onlyAges hp).phaseEdge _
  | answer a => exact .inl (endCycle_phase a s)
  | load d hp hd => exact .inr (by rw [hp, endCycle_phase]; exact .load d hd)
  | arm hp => exact .inr (by rw [hp, endCycle_phase]; exact .arm)
  | trigger off d e hp => exact .inr (by rw [hp, endCycle_phase]; exact .trigger off d)
  | latch off d =>
    exact (OnlyMarks.refl { s with lat := some { off := off, byte := d } }).onlyAges.phaseEdge _
  | quiet hm => exact hm.onlyAges.phaseEdge _

/-- Settles O44: each case of a bus cycle keeps the phase or takes its own edge, and COMPLETE and RESET have theirs. -/
theorem phaseGraphHasNoOtherEdge : Obligations.PhaseGraphHasNoOtherEdge := by
  rintro s t i (hi | rfl | rfl) h
  · rw [exec_bus hi, Host.Outcome.next.injEq] at h
    exact (h ▸ busCycle_cycleOf hi s).phaseEdge
  · by_cases hc : s.phase = .busy ∧ s.fault = none
    · rw [eq_completeStep_of_exec h, hc.1]
      exact .inr .complete
    · rw [completeOnlyWhenEnabled.2 s (by tauto)] at h
      cases h
  · obtain rfl := Host.Outcome.next.inj h
    rw [resetStep_eq]
    exact .inr (.reset _)

/-! ### CMD, the effect and the latch -/

/-- A cycle that only ages keeps the latch, or clears it with the lapse of the window. -/
theorem OnlyAges.lat_cases {s t : State} (h : OnlyAges s t) :
    t.lat = s.lat ∨ t.lat = none ∧ s.phase = .armed ∧ t.phase = .idle := by
  by_cases hp : s.phase = .armed
  · obtain ⟨-, -, hclosed, hopen⟩ := h.armed_cases hp
    by_cases h0 : s.ew - 1 = 0
    · exact .inr ⟨(hclosed h0).2, hp, (hclosed h0).1⟩
    · exact .inl (hopen h0).2
  · exact .inl (h.lat_kept hp)

/-- R25: CMD is written by a command load alone. -/
theorem BusCycle.cmd_cases {s t : State} {i : Instr} (h : BusCycle s i t) :
    t.cmd = s.cmd ∨ s.phase = .idle ∧ i = .wrCmd t.cmd ∧ legalCode s.cfg t.cmd = true := by
  cases h with
  | load d hp hd => exact .inr ⟨hp, by simp, by simpa using hd⟩
  | quiet hm => exact .inl hm.onlyAges.cmd
  | nop | answer | arm | trigger | latch => exact .inl (by simp)

/-- R33: the effect is written by a trigger store alone. -/
theorem BusCycle.eff_cases {s t : State} {i : Instr} (h : BusCycle s i t) :
    t.eff = s.eff ∨ s.phase = .armed ∧ ∃ off d, i = .stFlash off d := by
  cases h with
  | trigger off d e hp => exact .inr ⟨hp, off, d, rfl⟩
  | quiet hm => exact .inl hm.onlyAges.eff
  | nop | answer | load | arm | latch => exact .inl (by simp)

/-- R32: the latch is kept, cleared by a command load, an enable write or an end of Armed, or set by the first
store of a word write. -/
theorem BusCycle.lat_cases {s t : State} {i : Instr} (h : BusCycle s i t) :
    t.lat = s.lat ∨
    (t.lat = none ∧ (s.phase = .idle ∨ s.phase = .cmdLoaded ∨ s.phase = .armed ∧ t.phase ≠ .armed)) ∨
    (s.phase = .armed ∧ s.cmd = s.cfg.wordWriteCode ∧ s.lat = none ∧
      ∃ off d, i = .stFlash off d ∧ bsel off = false ∧ t.lat = some { off := off, byte := d }) := by
  have aged {t : State} (hages : OnlyAges s t) : t.lat = s.lat ∨ t.lat = none ∧ s.phase = .armed ∧ t.phase ≠ .armed :=
    hages.lat_cases.imp_right fun ⟨hl, hp, hidle⟩ => ⟨hl, hp, by simp [hidle]⟩
  cases h with
  | nop =>
    by_cases hp : s.phase = .triggered
    · exact .inl (by rw [endCycle_lat, aging_true_triggered hp])
    · exact (aged (nop_onlyAges hp)).imp_right fun ⟨hl, hend⟩ => .inl ⟨hl, .inr (.inr hend)⟩
  | answer a => exact .inl (endCycle_lat a s)
  | load d hp => exact .inr (.inl ⟨by simp, .inl hp⟩)
  | arm hp => exact .inr (.inl ⟨by simp, .inr (.inl hp)⟩)
  | trigger off d e hp => exact .inr (.inl ⟨by simp, .inr (.inr ⟨hp, by simp⟩)⟩)
  | latch off d hp hc hl heven =>
    rcases (OnlyMarks.refl { s with lat := some { off := off, byte := d } }).onlyAges.lat_cases with hset | ⟨hnone, -⟩
    · exact .inr (.inr ⟨hp, hc, hl, off, d, rfl, heven, hset⟩)
    · exact .inl (hnone.trans hl.symm)
  | quiet hm => exact (aged hm.onlyAges).imp_right fun ⟨hl, hend⟩ => .inl ⟨hl, .inr (.inr hend)⟩

/-- Settles O45: CMD, the effect and the latch change in the cases named, and the rest is the frame of a cycle; the
invariant leaves no latch to clear outside Armed. -/
theorem busOperationsFrame : Obligations.BusOperationsFrame := by
  intro s t i hi h
  rw [exec_bus hi, Host.Outcome.next.injEq] at h
  have hframe : CycleFrame s t := h ▸ cycleOf_frame hi s
  have hcycle : BusCycle s i t := h ▸ busCycle_cycleOf hi s
  refine ⟨fun hne => ?_, fun hne => hcycle.eff_cases.resolve_left hne, fun hne => ?_, fun hinv hne hnone => ?_,
    hframe.result, fun hf a => by rw [hframe.flashKept hf]⟩
  · obtain ⟨hp, hload, hd⟩ := hcycle.cmd_cases.resolve_left hne
    exact ⟨hp, hload, legalCode_iff.mp hd⟩
  · exact (hcycle.lat_cases.resolve_left hne).imp_left And.left
  · rcases hcycle.lat_cases.resolve_left hne with ⟨-, hp | hp | hend⟩ | ⟨-, -, hl, -⟩
    · exact absurd (hnone.trans (hinv.lat_eq_none (by simp [hp])).symm) hne
    · exact absurd (hnone.trans (hinv.lat_eq_none (by simp [hp])).symm) hne
    · exact hend
    · exact absurd (hnone.trans hl.symm) hne

end Sys2Proof.Machine
end

section
/-! The step (R175): what it takes off the agenda, and runs of presented words, which are runs of the operations
they decode to (R64, R93). -/

namespace Sys2Proof.Machine

/-! ### One step -/

theorem step_of_agenda {s : State} {e : Event} {rest : List Event} (h : s.agenda = e :: rest) :
    step s = exec e.instr { s with agenda := rest } := by
  simp only [step, State.fetch, h]

theorem step_of_no_agenda {s : State} (h : s.agenda = []) : step s = exec s.idleInstr s := by
  simp only [step, State.fetch, h]

theorem not_busy_or_faulted {s : State} (h : s.canComplete = false) : s.phase ≠ .busy ∨ s.fault ≠ none := by
  by_contra! hboth
  simp [canComplete_iff.mpr hboth] at h

/-- R180 in the model's schedule: with an empty agenda an enabled COMPLETE takes place. -/
theorem step_completes {s : State} (h : s.agenda = []) (hp : s.phase = .busy) (hf : s.fault = none) :
    step s = .next (completeStep s) := by
  rw [step_of_no_agenda h, State.idleInstr, canComplete_iff.mpr ⟨hp, hf⟩, cond_true, exec_complete_of_enabled hp hf]

/-- Settles O56: a presented word stands first on the agenda, decoded as `decodeTableWord` does. -/
theorem stepRunsPresentedWord : Obligations.StepRunsPresentedWord := by
  refine ⟨fun s T rest h => step_of_agenda h, fun s i w hw hdec => ?_⟩
  have hstep : step (s.withFetchWord 24 w) = exec (decode (BitVec.ofNat 22 (w % 2 ^ 24))) s := rfl
  rw [hstep, Nat.mod_eq_of_lt hw]
  simp only [decodeTableWord, decodeNat, Nat.mod_eq_of_lt hw, Nat.reduceEqDiff, if_false] at hdec
  split_ifs at hdec with hfits
  rw [Option.some.inj hdec]

/-- Settles O57: an event that is no word is its instruction, and an empty agenda leaves COMPLETE or NOP. -/
theorem stepRunsOtherEvents : Obligations.StepRunsOtherEvents := by
  refine ⟨fun s i rest h => step_of_agenda h, fun s h hp hf => ?_, fun s h hnot => ?_⟩
  · rw [step_completes h hp hf, exec_complete_of_enabled hp hf]
  · rw [step_of_no_agenda h, State.idleInstr, canComplete_eq_false hnot, cond_false]

/-- Every instruction but COMPLETE has a next state everywhere. -/
theorem exec_next_or_complete (i : Instr) (s : State) : (∃ t, exec i s = .next t) ∨ i = .complete := by
  cases i
  case complete => exact .inr rfl
  all_goals exact .inl ⟨_, rfl⟩

/-- Settles O58: a word is a bus operation; of the other events COMPLETE alone can be without a next state, and
with an empty agenda it is taken only where it is enabled. -/
theorem machineIsNeverStuck : Obligations.MachineIsNeverStuck := by
  refine ⟨fun s T => ⟨_, exec_bus (decode_isBus T) s⟩, fun s => ?_⟩
  cases hagenda : s.agenda with
  | nil =>
    rw [step_of_no_agenda hagenda, State.idleInstr]
    cases hc : s.canComplete with
    | true =>
      obtain ⟨hp, hf⟩ := canComplete_iff.mp hc
      exact .inl ⟨_, exec_complete_of_enabled hp hf⟩
    | false => exact .inl ⟨_, exec_bus rfl s⟩
  | cons e rest =>
    rw [step_of_agenda hagenda]
    rcases exec_next_or_complete e.instr { s with agenda := rest } with hnext | he
    · exact .inl hnext
    obtain rfl : e = .act .complete := by
      cases e with
      | word T => have hbus := decode_isBus T; simp [Event.instr] at he; simp [he, Instr.isBus] at hbus
      | act i => exact congrArg Event.act he
    cases hc : s.canComplete with
    | true =>
      obtain ⟨hp, hf⟩ := canComplete_iff.mp hc
      exact .inl ⟨_, exec_complete_of_enabled (s := { s with agenda := rest }) hp hf⟩
    | false =>
      have hnot := not_busy_or_faulted hc
      exact .inr ⟨completeOnlyWhenEnabled.2 { s with agenda := rest } hnot, hnot, rest, rfl⟩

/-! ### Runs of presented words -/

theorem run_succ_of_next {M : Host.Core} {s t : M.State} (h : M.step s = .next t) (k : Nat) :
    M.run (k + 1) s = M.run k t := by
  rw [Host.Core.run, h]

/-- A word on the agenda is one cycle of the operation it decodes to. -/
theorem step_word (T : Transaction) (rest : List Event) (s : State) :
    step (s.withAgenda (.word T :: rest)) = .next ((cycleOf (decode T) s).withAgenda rest) := by
  rw [← cycleOf_withAgenda (decode_isBus T)]
  exact exec_bus (decode_isBus T) _

/-- Words on the agenda are run as the operations they decode to, one each step. -/
theorem run_words (words : List Transaction) (k : Nat) (rest : List Event) (s : State) :
    Host.Core.run core (words.length + k) (s.withAgenda (words.map .word ++ rest)) =
      Host.Core.run core k ((runOps (words.map decode) s).withAgenda rest) := by
  induction words generalizing s with
  | nil => rw [List.length_nil, Nat.zero_add]; rfl
  | cons T words ih =>
    have hstep : core.step (s.withAgenda (.word T :: (words.map .word ++ rest))) =
        .next ((cycleOf (decode T) s).withAgenda (words.map .word ++ rest)) := step_word T _ s
    rw [List.length_cons, Nat.add_right_comm, List.map_cons, List.cons_append, run_succ_of_next hstep, ih]
    rfl

/-- Settles O60: the encoded words decode to the operations they are of. -/
theorem sequenceIsRunOfItsWords : Obligations.SequenceIsRunOfItsWords := by
  intro s ops rest hbus
  have hwords := decode_words hbus
  have hlength : (ops.filterMap encodeOp).length = ops.length := by
    rw [← List.length_map (f := decode), hwords]
  have hrun := run_words (ops.filterMap encodeOp) 0 rest s
  rw [hwords, hlength] at hrun
  exact hrun

/-! ### Busy with finitely many host words to come -/

/-- In Busy polls and NOPs change nothing but the answer. -/
theorem runOps_answers_of_busy (ops : List Instr) : (∀ i ∈ ops, i = .nop ∨ i = .rdStatus) → ∀ s : State,
    s.fault = none → s.phase = .busy → ∃ r n, runOps ops s = { s with rdata := r, draws := n } := by
  induction ops with
  | nil => exact fun _ s _ _ => ⟨s.rdata, s.draws, rfl⟩
  | cons i ops ih =>
    intro hops s hf hp
    obtain ⟨a, hcycle⟩ := cycleOf_answer_of_busy hp ((hops i (by simp)).imp_right .inl)
    rw [endCycle_clean a hf] at hcycle
    obtain ⟨r, n, hrest⟩ := ih (fun j hj => hops j (by simp [hj])) (cycleOf i s) (by rw [hcycle]; exact hf)
      (by rw [hcycle]; exact hp)
    exact ⟨r, n, by rw [runOps_cons, hrest, hcycle]⟩

/-- Settles O59: the words leave Busy and its effect as they are, and the empty agenda then leaves COMPLETE. -/
theorem busyEndsAfterHostWords : Obligations.BusyEndsAfterHostWords := by
  intro s words hf hp hagenda hwords
  obtain ⟨r, n, hops⟩ := runOps_answers_of_busy (words.map decode) (by simpa using hwords) s hf hp
  have hstart : s = s.withAgenda (words.map .word ++ []) := by rw [List.append_nil, ← hagenda]; rfl
  have hrun := run_words words 1 [] s
  rw [← hstart, hops] at hrun
  have hstep : step ({ s with rdata := r, draws := n }.withAgenda []) =
      .next (completeStep ({ s with rdata := r, draws := n }.withAgenda [])) := step_completes rfl hp hf
  exact ⟨_, hrun.trans (run_succ_of_next (M := core) hstep 0), rfl, rfl, rfl, hf, rfl⟩

/-! ### The two windows, in NOP cycles (R176, R177) -/

/-- `n` NOP words on the agenda are `n` cycles of NOP. -/
theorem run_nops (n : Nat) (rest : List Event) (s : State) :
    Host.Core.run core n { s with agenda := List.replicate n (.word 0x000000#22) ++ rest } =
      .next { runOps (nopOps n) s with agenda := rest } := by
  have hnop : decode 0x000000#22 = .nop := by decide
  have hrun := run_words (List.replicate n 0x000000#22) 0 rest s
  rw [List.length_replicate, List.map_replicate, List.map_replicate, hnop] at hrun
  exact hrun

/-- No-op cycles up to the bound lapse the command window (R176). -/
theorem nops_cmdLoaded_lapse (n : Nat) : ∀ s : State, s.fault = none → s.phase = .cmdLoaded →
    s.age < s.cfg.ceWindow → s.cfg.ceWindow ≤ s.age + n →
    ∃ r, runOps (nopOps n) s =
      { s with age := s.cfg.ceWindow, phase := .idle, rdata := r, draws := s.draws + n } := by
  induction n with
  | zero => exact fun s _ _ ha hn => absurd ha (Nat.not_lt.mpr hn)
  | succ n ih =>
    intro s hf hp ha hn
    by_cases hend : s.age + 1 = s.cfg.ceWindow
    · have h : nopCycle s = { s with
          age := s.cfg.ceWindow, phase := .idle, rdata := Config.freeByte s.draws, draws := s.draws + 1 } := by
        rw [nopCycle_clean s hf]; simp [aging, hp, ageCmdLoaded, hend]
      obtain ⟨r, hr⟩ := nops_still n (nopCycle s) (by simp [h, hf]) (by simp [h])
      exact ⟨r, by rw [nopOps_succ, hr, h]; simp; omega⟩
    · have h : nopCycle s = { s with age := s.age + 1, rdata := Config.freeByte s.draws, draws := s.draws + 1 } := by
        rw [nopCycle_clean s hf]; simp [aging, hp, ageCmdLoaded, hend]
      obtain ⟨r, hr⟩ := ih (nopCycle s) (by simp [h, hf]) (by simp [h, hp]) (by simp [h]; omega) (by simp [h]; omega)
      exact ⟨r, by rw [nopOps_succ, hr, h]; simp; omega⟩

/-- No-op cycles up to the bound lapse the trigger window (R177). -/
theorem nops_armed_lapse (n : Nat) : ∀ s : State, s.fault = none → s.phase = .armed → 1 ≤ s.ew → s.ew ≤ n →
    ∃ r, runOps (nopOps n) s =
      { s with ew := 0, phase := .idle, lat := none, rdata := r, draws := s.draws + n } := by
  induction n with
  | zero => exact fun s _ _ h1 hn => absurd (h1.trans hn) (by omega)
  | succ n ih =>
    intro s hf hp h1 hn
    by_cases hend : s.ew - 1 = 0
    · have h : nopCycle s = { s with
          ew := 0, phase := .idle, lat := none, rdata := Config.freeByte s.draws, draws := s.draws + 1 } := by
        rw [nopCycle_clean s hf]; simp [aging, hp, ageArmed, hend]
      obtain ⟨r, hr⟩ := nops_still n (nopCycle s) (by simp [h, hf]) (by simp [h])
      exact ⟨r, by rw [nopOps_succ, hr, h]; simp; omega⟩
    · have h : nopCycle s = { s with ew := s.ew - 1, rdata := Config.freeByte s.draws, draws := s.draws + 1 } := by
        rw [nopCycle_clean s hf]; simp [aging, hp, ageArmed, hend]
      obtain ⟨r, hr⟩ := ih (nopCycle s) (by simp [h, hf]) (by simp [h, hp]) (by simp [h]; omega) (by simp [h]; omega)
      exact ⟨r, by rw [nopOps_succ, hr, h]; simp; omega⟩

/-- Settles O15: the cycles leave CmdLoaded open below the bound, where the enable write arms (R104), and lapse it
from the bound on, where it has no effect (R105). -/
theorem enableAcceptedWithinBound : Obligations.EnableAcceptedWithinBound := by
  intro s n rest hv hf hp hage
  refine ⟨_, run_nops n rest s, ?_⟩
  rcases Nat.lt_or_ge n s.cfg.ceWindow with hn | hn
  · obtain ⟨r, hr⟩ := nops_cmdLoaded n s hf hp (by omega)
    rw [hr]
    exact ⟨rfl, rfl, hf, rfl, rfl, fun _ => ⟨hp, _, wrProtArmsCommand _ hf hp, rfl, rfl⟩,
      fun hge => absurd hn (Nat.not_lt.mpr hge)⟩
  · obtain ⟨r, hr⟩ := nops_cmdLoaded_lapse n s hf hp (hage ▸ hv.windowPos) (by omega)
    rw [hr]
    exact ⟨rfl, rfl, hf, rfl, rfl, fun hlt => absurd hn (Nat.not_le.mpr hlt),
      fun _ => ⟨rfl, _, wrProtInIdleHasNoEffect _ _ hf rfl, rfl⟩⟩

/-- Settles O17: the cycles leave Armed open below four, where the store triggers (R121), and lapse it from four
on, where the store is unarmed (R152). -/
theorem triggerAcceptedForFourCycles : Obligations.TriggerAcceptedForFourCycles := by
  intro s n rest off d hf hp hew hc
  have hrun := run_nops n rest s
  rcases Nat.lt_or_ge n 4 with hn | hn
  · obtain ⟨r, hr⟩ := nops_armed n s hf hp (by omega)
    rw [hr] at hrun
    exact ⟨_, _, hrun, rfl, rfl, hf, eraseTriggerStore _ off d hf hp hc, fun _ => ⟨rfl, hf⟩,
      fun hge => absurd hn (Nat.not_lt.mpr hge)⟩
  · obtain ⟨r, hr⟩ := nops_armed_lapse n s hf hp (by omega) (by omega)
    rw [hr] at hrun
    exact ⟨_, _, hrun, rfl, rfl, hf, exec_bus rfl _, fun hlt => absurd hn (Nat.not_le.mpr hlt),
      fun _ => ⟨rfl, stFlashCycle_fault_of_idle off d hf rfl⟩⟩

end Sys2Proof.Machine
end

section
/-! The driver operations (R185 to R190): what each part of an expansion does to a block in Idle, as one update of
the state in which only the latest answer and the number of draws are left open. -/

namespace Sys2Proof.Machine

/-! ### Domains (R167) -/

theorem inDomain_refused {b : Bool} (run s : State) (hb : b = false) :
    inDomain b run s = { s with refused := some (s.refused.getD .translatorDomain) } := by
  rw [inDomain, hb, cond_false, markRefused]

/-- Settles O53: outside its domain each driver operation is the refusal mark alone. -/
theorem driverRefusesOutsideDomain : Obligations.DriverRefusesOutsideDomain := by
  refine fun s addr => ⟨fun hw d v g1 g2 g3 polls last => ?_, fun hlarge v => ?_⟩
  · have hout : decide (s.cfg.InWindow addr) = false := decide_eq_false hw
    exact ⟨congrArg _ (inDomain_refused _ s hout), congrArg _ (inDomain_refused _ s hout),
      congrArg _ (inDomain_refused _ s hout)⟩
  · have hout : decide (addr < 2 ^ s.cfg.addrWidth) = false := decide_eq_false (Nat.not_lt.mpr hlarge)
    exact ⟨congrArg _ (inDomain_refused _ s hout), congrArg _ (inDomain_refused _ s hout)⟩

theorem exec_erasePage {s : State} {addr : Nat} (d : Byte) (g1 g2 more : Nat) (polls : List Nat) (last : Nat)
    (hw : s.cfg.InWindow addr) :
    exec (.erasePage addr d g1 g2 more polls last) s =
      .next (pollLoop polls last (runOps (eraseOps s.cfg addr d g1 g2 more) s)) := by
  rw [exec, execErasePage, inDomain, decide_eq_true hw, cond_true]

theorem exec_writeWord {s : State} {addr : Nat} (v : FlashWord) (g1 g2 g3 : Nat) (polls : List Nat) (last : Nat)
    (hw : s.cfg.InWindow addr) :
    exec (.writeWord addr v g1 g2 g3 polls last) s =
      .next (pollLoop polls last (runOps (writeOps s.cfg addr v g1 g2 g3) s)) := by
  rw [exec, execWriteWord, inDomain, decide_eq_true hw, cond_true]

/-! ### The busy-wait (R185) -/

/-- In Idle with no effect pending there is nothing for COMPLETE to change. -/
theorem completeStep_of_idle {s : State} (hp : s.phase = .idle) (he : s.eff = .noEffect) : completeStep s = s := by
  rw [completeStep, he, Memory.apply, ← hp, ← he]

theorem completeIfBusy_eq {s : State} (hf : s.fault = none) (hp : s.phase = .idle ∨ s.phase = .busy)
    (he : s.phase = .idle → s.eff = .noEffect) : completeIfBusy s = completeStep s := by
  rcases hp with hidle | hbusy
  · rw [completeIfBusy, canComplete_eq_false (.inl (by simp [hidle])), cond_false,
      completeStep_of_idle hidle (he hidle)]
  · rw [completeIfBusy, canComplete_iff.mpr ⟨hbusy, hf⟩, cond_true]

theorem answersPoll_eq_true {s : State} (hf : s.fault = none) (hp : s.phase = .idle ∨ s.phase = .busy) :
    s.answersPoll = true := by
  simp [State.answersPoll, hf, hp]

/-- A poll with its gap changes nothing but the answer, which shows BUSY (R106). -/
theorem poll_clean (g : Nat) {s : State} (hf : s.fault = none) (hp : s.phase = .idle ∨ s.phase = .busy) :
    (rdStatusCycle s).readsBusy = decide (s.phase = .busy) ∧
      ∃ r n, runOps (nopOps g) (rdStatusCycle s) = { s with rdata := r, draws := n } := by
  rw [rdStatusCycle_clean hf hp]
  obtain ⟨r, hr⟩ := nops_still g { s with rdata := s.status, draws := s.draws + 1 } hf hp
  exact ⟨decodeStatusByte_status s, r, s.draws + 1 + g, hr⟩

/-- Whatever the polls, the busy-wait ends where COMPLETE leads, after the polls' answers. -/
theorem pollLoop_clean (polls : List Nat) (last : Nat) : ∀ s : State, s.fault = none →
    s.phase = .idle ∨ s.phase = .busy → (s.phase = .idle → s.eff = .noEffect) →
    ∃ r n, pollLoop polls last s = { completeStep s with rdata := r, draws := n } := by
  induction polls with
  | nil =>
    intro s hf hp he
    have hidle : (completeStep s).phase = .idle := rfl
    have hclean : (completeStep s).fault = none := hf
    rw [pollLoop, completeIfBusy_eq hf hp he, answersPoll_eq_true hclean (.inl hidle), cond_true]
    exact (poll_clean last hclean (.inl hidle)).2
  | cons g polls ih =>
    intro s hf hp he
    obtain ⟨hreads, r, n, hr⟩ := poll_clean g hf hp
    rw [pollLoop, answersPoll_eq_true hf hp, cond_true, hreads, hr]
    rcases hp with hidle | hbusy
    · rw [decide_eq_false (by simp [hidle]), cond_false, completeStep_of_idle hidle (he hidle)]
      exact ⟨r, n, rfl⟩
    · rw [decide_eq_true hbusy, cond_true]
      exact ih { s with rdata := r, draws := n } hf (.inr hbusy) he

/-- Settles O47: the busy-wait ends where COMPLETE leads, and COMPLETE leads to Idle with the effect applied. -/
theorem waitNotBusyEnds : Obligations.WaitNotBusyEnds := by
  intro s polls last hf hp he
  obtain ⟨r, n, hrun⟩ := pollLoop_clean polls last s hf hp he
  exact ⟨_, congrArg Host.Outcome.next hrun, rfl, rfl, rfl, hf, rfl, rfl, rfl, rfl, rfl, rfl, rfl⟩

/-! ### Loading and arming a command -/

/-- What erase_page and write_word begin with: the command load and the enable write, with their gaps. -/
def armOps (c : Config) (code : Byte) (g1 g2 : Nat) : List Instr :=
  [.wrCmd code] ++ nopOps g1 ++ [.wrProt c.enableCode] ++ nopOps g2

theorem eraseOps_eq (c : Config) (addr : Nat) (d : Byte) (g1 g2 more : Nat) :
    eraseOps c addr d g1 g2 more =
      armOps c c.pageEraseCode g1 g2 ++ memWriteOp c addr d :: nopOps (postTriggerNops + more) := by
  simp [eraseOps, armOps]

theorem writeOps_eq (c : Config) (addr : Nat) (v : FlashWord) (g1 g2 g3 : Nat) :
    writeOps c addr v g1 g2 g3 =
      armOps c c.wordWriteCode g1 g2 ++ memWriteOp c addr (v.extractLsb' 0 8) ::
        (nopOps g3 ++ memWriteOp c (addr + 1) (v.extractLsb' 8 8) :: nopOps postTriggerNops) := by
  simp [writeOps, armOps]

theorem cycleOf_eq_of_exec {i : Instr} {s t : State} (hi : i.isBus = true) (h : exec i s = .next t) :
    cycleOf i s = t :=
  Host.Outcome.next.inj ((exec_bus hi s).symm.trans h)

/-- R102, R104 with gaps within their bounds: the command is armed, and `g2` cycles of its window are used. -/
theorem runOps_armOps {s : State} {code : Byte} {g1 g2 : Nat} (hf : s.fault = none) (hp : s.phase = .idle)
    (hcode : code = s.cfg.pageEraseCode ∨ code = s.cfg.wordWriteCode) (hg1 : g1 + 1 ≤ s.cfg.ceWindow)
    (hg2 : g2 + 1 ≤ 4) :
    ∃ r n, runOps (armOps s.cfg code g1 g2) s = { s with
      cmd := code, age := g1, lat := none, ew := 4 - g2, phase := .armed, rdata := r, draws := n } := by
  have hload := cycleOf_eq_of_exec rfl (wrCmdLoadsLegalCode s code hf hp hcode)
  obtain ⟨r1, hgap1⟩ := nops_cmdLoaded g1 (cycleOf (.wrCmd code) s) (by rw [hload]; exact hf) (by rw [hload])
    (by rw [hload]; simp only; omega)
  rw [hload] at hgap1
  have harm := cycleOf_eq_of_exec rfl (wrProtArmsCommand { s with
    cmd := code, age := 0 + g1, lat := none, phase := .cmdLoaded, rdata := r1, draws := s.draws + 1 + g1 } hf rfl)
  obtain ⟨r2, hgap2⟩ := nops_armed g2 { s with
    cmd := code, age := 0 + g1, lat := none, ew := 4, phase := .armed,
    rdata := Config.freeByte (s.draws + 1 + g1), draws := s.draws + 1 + g1 + 1 } hf rfl (by simp only; omega)
  refine ⟨r2, s.draws + 1 + g1 + 1 + g2, ?_⟩
  simp only [armOps, runOps_append, runOps_cons, runOps_nil, hload, hgap1]
  rw [harm, hgap2, Nat.zero_add]

/-! ### erase_page (R186, R187) -/

/-- `erase_page A` up to its poll: the flash operation runs with the effect its offset selects. -/
theorem runOps_eraseOps {s : State} {addr : Nat} {off : Offset} (d : Byte) {g1 g2 : Nat} (more : Nat)
    (hf : s.fault = none) (hp : s.phase = .idle) (hoff : flashOffset s.cfg addr = .ok off)
    (hg1 : g1 + 1 ≤ s.cfg.ceWindow) (hg2 : g2 + 1 ≤ 4) :
    ∃ r n, runOps (eraseOps s.cfg addr d g1 g2 more) s = { s with
      cmd := s.cfg.pageEraseCode, age := g1, lat := none, ew := 0, tn := 0, eff := eraseEffect off, phase := .busy,
      rdata := r, draws := n } := by
  obtain ⟨r1, n1, harm⟩ := runOps_armOps hf hp (.inl rfl) hg1 hg2
  have hstore := cycleOf_eq_of_exec rfl (eraseTriggerStore { s with
    cmd := s.cfg.pageEraseCode, age := g1, lat := none, ew := 4 - g2, phase := .armed, rdata := r1, draws := n1 }
    off d hf rfl rfl)
  obtain ⟨r2, hnops⟩ := nops_triggered more { s with
    cmd := s.cfg.pageEraseCode, age := g1, lat := none, ew := 0, tn := 2, eff := eraseEffect off, phase := .triggered,
    rdata := Config.freeByte n1, draws := n1 + 1 } hf rfl rfl
  refine ⟨r2, n1 + 1 + (2 + more), ?_⟩
  rw [eraseOps_eq, runOps_append, runOps_cons, harm, memWriteOp_of_flashOffset hoff, hstore]
  exact hnops

/-- Settles O48: the sequence reaches Busy with the effect of its offset, and the busy-wait applies it. -/
theorem erasePageResult : Obligations.ErasePageResult := by
  intro s addr d g1 g2 more polls last off hv hwf hf hp hoff hg1 hg2
  obtain ⟨r, n, hrun⟩ := runOps_eraseOps d more hf hp hoff hg1 hg2
  obtain ⟨r', n', hpoll⟩ := pollLoop_clean polls last (runOps (eraseOps s.cfg addr d g1 g2 more) s)
    (by rw [hrun]; exact hf) (by rw [hrun]; exact .inr rfl) (by rw [hrun]; nofun)
  refine ⟨_, exec_erasePage d g1 g2 more polls last (inWindow_of_flashOffset hoff), ?_⟩
  rw [hpoll, hrun]
  refine ⟨rfl, hf, rfl, rfl, rfl, rfl, rfl, Memory.wf_apply (eraseEffect off) hwf, fun hodd w => ?_, fun heven => ?_⟩
  · have happly : s.flash.apply (eraseEffect off) = s.flash.erasePage (paddr off) := by
      rw [eraseEffect, if_pos hodd, Memory.apply]
    simp only [State.flashWord, completeStep_flash, happly]
    exact Memory.word_erasePage_pageOf _ w hwf
  · simp only [completeStep_flash, eraseEffect, heven, Bool.false_eq_true, if_false, Memory.apply]

/-! ### write_word (R188, R189) -/

/-- `write_word A, W` at an even offset up to its poll: the flash operation runs with the word to write. -/
theorem runOps_writeOps {s : State} {addr : Nat} {off : Offset} (v : FlashWord) {g1 g2 g3 : Nat} (hv : s.cfg.Valid)
    (hf : s.fault = none) (hp : s.phase = .idle) (hoff : flashOffset s.cfg addr = .ok off)
    (heven : off.toNat % 2 = 0) (hg1 : g1 + 1 ≤ s.cfg.ceWindow) (hg : g2 + g3 + 2 ≤ 4) :
    ∃ r n, runOps (writeOps s.cfg addr v g1 g2 g3) s = { s with
      cmd := s.cfg.wordWriteCode, age := g1, lat := none, ew := 0, tn := 0, eff := .writeWord (wordIndex off) v,
      phase := .busy, rdata := r, draws := n } := by
  have hbsel : bsel off = false := Bool.eq_false_iff.mpr fun h => by simp [bsel_iff.mp h] at heven
  have hopen : ¬ 4 - g2 - 1 = 0 := by omega
  obtain ⟨r1, n1, harm⟩ := runOps_armOps hf hp (.inr rfl) hg1 (by omega : g2 + 1 ≤ 4)
  have hlow := cycleOf_eq_of_exec rfl (firstStoreLatchesLowByte { s with
    cmd := s.cfg.wordWriteCode, age := g1, lat := none, ew := 4 - g2, phase := .armed, rdata := r1, draws := n1 }
    off (v.extractLsb' 0 8) hv hf rfl rfl rfl hbsel)
  simp only [if_neg hopen] at hlow
  obtain ⟨r2, hgap⟩ := nops_armed g3 { s with
    cmd := s.cfg.wordWriteCode, age := g1, lat := some { off := off, byte := v.extractLsb' 0 8 }, ew := 4 - g2 - 1,
    phase := .armed, rdata := Config.freeByte n1, draws := n1 + 1 } hf rfl (by simp only; omega)
  have hhigh := cycleOf_eq_of_exec rfl (secondStoreCommits { s with
    cmd := s.cfg.wordWriteCode, age := g1, lat := some { off := off, byte := v.extractLsb' 0 8 },
    ew := 4 - g2 - 1 - g3, phase := .armed, rdata := r2, draws := n1 + 1 + g3 }
    { off := off, byte := v.extractLsb' 0 8 } (off + 1) (v.extractLsb' 8 8) hv hf rfl rfl rfl (toNat_succ_of_even heven))
  obtain ⟨r3, hnops⟩ := nops_triggered 0 { s with
    cmd := s.cfg.wordWriteCode, age := g1, lat := none, ew := 0, tn := 2, eff := .writeWord (wordIndex off) v,
    phase := .triggered, rdata := Config.freeByte (n1 + 1 + g3), draws := n1 + 1 + g3 + 1 } hf rfl rfl
  refine ⟨r3, n1 + 1 + g3 + 1 + 2, ?_⟩
  rw [writeOps_eq, runOps_append, runOps_cons, runOps_append, runOps_cons, harm, memWriteOp_of_flashOffset hoff,
    memWriteOp_of_flashOffset (flashOffset_succ hoff heven), hlow, hgap, hhigh, append_bytes]
  exact hnops

/-- A fault mark stays through the busy-wait (R43). -/
theorem pollLoop_fault {s : State} {r : Fault} (polls : List Nat) (last : Nat) (hr : s.fault = some r) :
    (pollLoop polls last s).fault = some r :=
  pollLoop_induct (P := fun u => u.fault = some r) (fun u _ hi hu => (cycleOf_frame hi u).faultKept r hu)
    (fun _ _ hu => hu) polls last s hr

/-- The busy-wait does not touch software's result. -/
theorem pollLoop_result (polls : List Nat) (last : Nat) (s : State) : (pollLoop polls last s).result = s.result :=
  pollLoop_induct (P := fun u => u.result = s.result) (fun u _ hi hu => (cycleOf_frame hi u).result.trans hu)
    (fun _ _ hu => hu) polls last s rfl

/-- At an odd offset the first store of `write_word` is malformed (R139), and the mark stays. -/
theorem runOps_writeOps_odd {s : State} {addr : Nat} {off : Offset} (v : FlashWord) {g1 g2 g3 : Nat}
    (hv : s.cfg.Valid) (hf : s.fault = none) (hp : s.phase = .idle) (hoff : flashOffset s.cfg addr = .ok off)
    (hodd : off.toNat % 2 = 1) (hg1 : g1 + 1 ≤ s.cfg.ceWindow) (hg2 : g2 + 1 ≤ 4) :
    (runOps (writeOps s.cfg addr v g1 g2 g3) s).fault = some .malformedWrite := by
  obtain ⟨r1, n1, harm⟩ := runOps_armOps hf hp (.inr rfl) hg1 hg2
  obtain ⟨t, hstore, hfault, -⟩ := otherStoresAreMalformed { s with
    cmd := s.cfg.wordWriteCode, age := g1, lat := none, ew := 4 - g2, phase := .armed, rdata := r1, draws := n1 }
    off (v.extractLsb' 0 8) hv rfl rfl (.inl ⟨rfl, bsel_iff.mpr hodd⟩)
  simp only [hf, Option.getD_none] at hfault
  have hbus := writeOps_isBus s.cfg addr v g1 g2 g3
  rw [writeOps_eq] at hbus ⊢
  rw [runOps_append, runOps_cons, harm, memWriteOp_of_flashOffset hoff, cycleOf_eq_of_exec rfl hstore]
  exact (runOps_marks (fun i hi => hbus i (by simp only [List.mem_append, List.mem_cons] at hi ⊢; tauto)) t).1 _ hfault

/-- Settles O49: at an even address the sequence reaches Busy with the word to write, which the busy-wait applies;
at an odd one its first store is malformed. -/
theorem writeWordResult : Obligations.WriteWordResult := by
  intro s addr v g1 g2 g3 polls last off hv hwf hf hp hoff hg1 hg
  have hmod := flashOffset_mod hv hoff
  refine ⟨_, exec_writeWord v g1 g2 g3 polls last (inWindow_of_flashOffset hoff), ?_, fun heven => ?_, fun hodd => ?_⟩
  · obtain ⟨-, -, hresult⟩ := runOps_frame (writeOps_isBus s.cfg addr v g1 g2 g3) s
    rw [pollLoop_result, hresult]
  · obtain ⟨r, n, hrun⟩ := runOps_writeOps v hv hf hp hoff (by omega) hg1 hg
    obtain ⟨r', n', hpoll⟩ := pollLoop_clean polls last (runOps (writeOps s.cfg addr v g1 g2 g3) s)
      (by rw [hrun]; exact hf) (by rw [hrun]; exact .inr rfl) (by rw [hrun]; nofun)
    rw [hpoll, hrun]
    exact ⟨rfl, hf, rfl, rfl, rfl, rfl, Memory.wf_apply (.writeWord (wordIndex off) v) hwf,
      fun w => Memory.word_programWord_index _ w v hwf⟩
  · exact pollLoop_fault polls last (runOps_writeOps_odd v hv hf hp hoff (by omega) hg1 (by omega))

/-! ### read_word (R190), and sequences of driver operations -/

/-- Settles O50: the two loads answer the bytes of the word, and the last answer is its high byte. -/
theorem readWordReturnsWord : Obligations.ReadWordReturnsWord := by
  intro s addr gap off hv hf hp hoff he
  have heven := flashOffset_even hv hoff he
  rw [exec_readWord gap (inWindow_of_flashOffset hoff), readWordRun_of_idle gap hf hp hoff heven,
    ← s.flashByte_append heven, highByte_append]

/-- Settles O54: the erase at the odd address sets the word to all ones, the write ANDs the value into it, and the
read returns it. -/
theorem eraseWriteReadRoundTrip : Obligations.EraseWriteReadRoundTrip := by
  intro s addr v d g1 g2 more h1 h2 h3 gap p1 p2 l1 l2 hv hwf hf hp hw he hg1 hg2 hh1 hh
  obtain ⟨off, hoff⟩ := exists_flashOffset hw
  have heven := flashOffset_even hv hoff he
  have hodd : bsel (off + 1) = true := bsel_iff.mpr (by rw [toNat_succ_of_even heven]; omega)
  have hpage : pageOf (wordIndex off) = paddr (off + 1) := by
    rw [pageOf_eq_iff, wordIndex_toNat, paddr_toNat, toNat_succ_of_even heven]; omega
  obtain ⟨t, ht, htp, htf, htr, -, -, -, -, htwf, herased, -⟩ :=
    erasePageResult s (addr + 1) d g1 g2 more p1 l1 (off + 1) hv hwf hf hp (flashOffset_succ hoff heven) hg1 hg2
  have htc : t.cfg = s.cfg := (parametersNeverChange s t _ ht).1
  obtain ⟨u, hu, -, hwritten, -⟩ := writeWordResult t addr v h1 h2 h3 p2 l2 off (htc ▸ hv) htwf htf htp
    (htc ▸ hoff) (htc ▸ hh1) hh
  obtain ⟨hup, huf, hur, -, -, -, -, huword⟩ := hwritten he
  have huc : u.cfg = s.cfg := (parametersNeverChange t u _ hu).1.trans htc
  refine ⟨t, u, _, ht, hu, readWordReturnsWord u addr gap off (huc ▸ hv) huf hup (huc ▸ hoff) he, ?_, hup, huf,
    hur.trans htr⟩
  have hword : u.flashWord (wordIndex off) = 0xFFFF#16 &&& v := by
    rw [huword, if_pos rfl, herased hodd, if_pos hpage]
  exact hword.trans (BitVec.allOnes_and (x := v))

/-- Settles O55: each write ANDs its value into the word and leaves every other word. -/
theorem twoWritesAccumulateAnd : Obligations.TwoWritesAccumulateAnd := by
  intro s addr v1 v2 p1 p2 off hv hwf hf hp hoff he
  obtain ⟨t, ht, -, hfirst, -⟩ := writeWordResult s addr v1 0 0 0 p1 0 off hv hwf hf hp hoff hv.windowPos (by omega)
  obtain ⟨htp, htf, -, -, -, -, htwf, htword⟩ := hfirst he
  have htc : t.cfg = s.cfg := (parametersNeverChange s t _ ht).1
  obtain ⟨u, hu, -, hsecond, -⟩ := writeWordResult t addr v2 0 0 0 p2 0 off (htc ▸ hv) htwf htf htp (htc ▸ hoff)
    (htc ▸ hv.windowPos) (by omega)
  obtain ⟨hup, huf, -, -, -, -, -, huword⟩ := hsecond he
  refine ⟨t, u, ht, hu, huf, hup, fun w => ?_⟩
  rw [huword, htword]
  split_ifs <;> rfl

end Sys2Proof.Machine
end
